-- ==== Sys2Proof/Word.lean ====
section
/-! DEFINITION. The word types of the CHIMA core and the two fixed groups of words its registers form
(00_scope.md R7, R10; 10_state.md R20). -/

namespace Sys2Proof

/-- A 32-bit word: every register of the window is one (R20). Bit 0 is the least significant bit (R10). -/
abbrev Word := BitVec 32

/-- A byte. -/
abbrev Byte := BitVec 8

/-- Four words: KEY, IV, DIN, DOUT, a cipher block, a hash message block, the hash key register. -/
structure Words4 where
  w0 : Word
  w1 : Word
  w2 : Word
  w3 : Word
deriving DecidableEq, Repr

/-- Eight words: the chaining value H and the compression's working register (R35, R191). -/
structure Words8 where
  w0 : Word
  w1 : Word
  w2 : Word
  w3 : Word
  w4 : Word
  w5 : Word
  w6 : Word
  w7 : Word
deriving DecidableEq, Repr

end Sys2Proof
end

