-- ==== Sys2Proof/Config.lean ====
section
/-! DEFINITION. What the spec leaves to the implementation: its four OPEN parameters (00_scope.md R8), each an
opaque constant, and the one free value of the model. Nothing in Lean can evaluate an opaque constant, so whatever
is proved holds for every value of it. -/

namespace Sys2Proof

/-- The hash constants of R8: 64 round constants and 8 initial chaining words. The hash functions take them as an
argument, so that they can be checked against the named instances P_TEST and P_ZERO of 95_test_vectors.md. -/
structure HashParams where
  rc : Fin 64 → Word
  iv : Fin 8 → Word

/-- OPEN parameter `BASE` counted in windows of 0x80 bytes (R8, D2). Log entry 1. -/
opaque Config.baseWindow : Nat

/-- OPEN parameter `BASE`: the window's base address, a multiple of 0x80 (R8, R60). -/
def Config.base : Nat := 0x80 * Config.baseWindow

/-- OPEN parameter `ROUNDS_RESET` counted from 9: one of the 14 values of [9, 22] (R8, D15). Log entry 2. -/
opaque Config.roundsResetFrom9 : Fin 14

/-- OPEN parameter `ROUNDS_RESET`, an integer in [9, 22] (R8, R42). -/
def Config.roundsReset : BitVec 5 := BitVec.ofNat 5 (9 + Config.roundsResetFrom9.val)

/-- OPEN parameter `HASH_RC[0..63]` (R8, R181, D27). Log entry 3. -/
opaque Config.hashRC : Fin 64 → Word

/-- OPEN parameter `HASH_IV[0..7]` (R8, R201, D28). Log entry 3. -/
opaque Config.hashIV : Fin 8 → Word

/-- The hardware's own hash constants. -/
def Config.hash : HashParams := { rc := Config.hashRC, iv := Config.hashIV }

/-- FREE VALUE: whether the n-th CMD write that a reset cuts off ends on the bus without an error. R260: "the
stalled access ends at the platform's choice". Applied to `State.freeUses`. Log entry 4. -/
opaque Config.cutOffAccessCompletes : Nat → Bool

end Sys2Proof
end

