-- ==== Sys2Proof/Syntax.lean ====
section
/-! DEFINITION. The commands of the core, one constructor for each row of spec/opcode_table.json (R86). -/

namespace Sys2Proof

/-- The BSZ field of a cipher command: 0 selects a 64-bit block, 1 a 128-bit block (R82). -/
inductive BlockSize where
  | b64
  | b128
deriving DecidableEq, Repr

/-- A command (R85, R86). No command names a register; each operand below is a field of the command word (R84). -/
inductive Instr where
  /-- NOP (R230). -/
  | nop
  /-- SET_ROUNDS ROUNDVAL (R231): every 8-bit value encodes (R83). -/
  | setRounds (roundval : BitVec 8)
  /-- ECB_ENC (R152). -/
  | ecbEnc (bsz : BlockSize)
  /-- ECB_DEC (R153). -/
  | ecbDec (bsz : BlockSize)
  /-- CBC_ENC (R154). -/
  | cbcEnc (bsz : BlockSize)
  /-- CBC_DEC (R155). -/
  | cbcDec (bsz : BlockSize)
  /-- CFB_ENC (R156). -/
  | cfbEnc (bsz : BlockSize)
  /-- CFB_DEC (R157). -/
  | cfbDec (bsz : BlockSize)
  /-- OFB_ENC (R158). -/
  | ofbEnc (bsz : BlockSize)
  /-- OFB_DEC (R159). -/
  | ofbDec (bsz : BlockSize)
  /-- CTR_ENC (R160). -/
  | ctrEnc (bsz : BlockSize)
  /-- CTR_DEC (R161). -/
  | ctrDec (bsz : BlockSize)
  /-- HASH_INIT (R201). -/
  | hashInit
  /-- HASH_UPDATE NBITS (R202): well formed only up to 128 (R83). -/
  | hashUpdate (nbits : BitVec 8)
  /-- HASH_FINAL (R205). -/
  | hashFinal
deriving DecidableEq, Repr

end Sys2Proof
end

