-- ==== Sys2Proof/WellFormed.lean ====
section
/-! DEFINITION. Which terms of `Instr` a command word can encode. -/

namespace Sys2Proof

/-- R83, R89: a HASH_UPDATE with NBITS above 128 is an illegal encoding. Every other term is encodable: ROUNDVAL is
range-checked only when the command runs (R83). -/
def Instr.wf : Instr → Bool
  | .nop => true
  | .setRounds _ => true
  | .ecbEnc _ => true
  | .ecbDec _ => true
  | .cbcEnc _ => true
  | .cbcDec _ => true
  | .cfbEnc _ => true
  | .cfbDec _ => true
  | .ofbEnc _ => true
  | .ofbDec _ => true
  | .ctrEnc _ => true
  | .ctrDec _ => true
  | .hashInit => true
  | .hashUpdate nbits => decide (nbits.toNat ≤ 128)
  | .hashFinal => true

end Sys2Proof
end

