-- ==== Sys2Proof/Decode.lean ====
section
/-! DEFINITION. Decoding and encoding of command words (30_encoding.md R80 to R90). -/

namespace Sys2Proof

/-- Why a word is illegal: the four causes of R89. Every one of them is rejected with CMD_ERR (R245). -/
inductive Illegal where
  /-- OPC is not 0x00, 0x01, 0x10, 0x20, 0x21 or 0x22. -/
  | opcode
  /-- A must-be-0 bit of the word's format is 1. -/
  | mustBeZero
  /-- A cipher word with MODE 5, 6 or 7. -/
  | mode
  /-- A HASH_UPDATE word with NBITS above 128. -/
  | nbits
deriving DecidableEq, Repr

/-- `OPC = c[31:24]` (R81). -/
def opcField (c : Word) : BitVec 8 := c.extractLsb' 24 8

/-- The 8-bit immediate `c[7:0]` of format I: ROUNDVAL or NBITS (R81, R83). -/
def immField (c : Word) : BitVec 8 := c.extractLsb' 0 8

/-- `MODE = c[2:0]` of format C (R82). -/
def modeField (c : Word) : BitVec 3 := c.extractLsb' 0 3

/-- `DIR = c[3]` of format C: false encrypts, true decrypts (R82). -/
def dirField (c : Word) : Bool := c.getLsbD 3

/-- `BSZ = c[4]` of format C (R82). -/
def bszField (c : Word) : BlockSize := if c.getLsbD 4 then .b128 else .b64

/-- The cipher command with these fields (R82); MODE 5, 6 and 7 are illegal. -/
def decodeCipher (mode : BitVec 3) (dir : Bool) (bsz : BlockSize) : Except Illegal Instr :=
  match mode.toNat, dir with
  | 0, false => .ok (.ecbEnc bsz)
  | 0, true => .ok (.ecbDec bsz)
  | 1, false => .ok (.cbcEnc bsz)
  | 1, true => .ok (.cbcDec bsz)
  | 2, false => .ok (.cfbEnc bsz)
  | 2, true => .ok (.cfbDec bsz)
  | 3, false => .ok (.ofbEnc bsz)
  | 3, true => .ok (.ofbDec bsz)
  | 4, false => .ok (.ctrEnc bsz)
  | 4, true => .ok (.ctrDec bsz)
  | _, _ => .error .mode

/-- Format Z: `c[23:0]` must be 0 (R81). -/
def decodeZ (c : Word) (i : Instr) : Except Illegal Instr :=
  if c.extractLsb' 0 24 = 0 then .ok i else .error .mustBeZero

/-- SET_ROUNDS, format I: `c[23:8]` must be 0 (R81). -/
def decodeSetRounds (c : Word) : Except Illegal Instr :=
  if c.extractLsb' 8 16 = 0 then .ok (.setRounds (immField c)) else .error .mustBeZero

/-- A format C word: `c[23:5]` must be 0 (R81). -/
def decodeC (c : Word) : Except Illegal Instr :=
  if c.extractLsb' 5 19 = 0 then decodeCipher (modeField c) (dirField c) (bszField c) else .error .mustBeZero

/-- HASH_UPDATE, format I with NBITS at most 128 (R81, R83). -/
def decodeHashUpdate (c : Word) : Except Illegal Instr :=
  if c.extractLsb' 8 16 = 0 then
    if (immField c).toNat ≤ 128 then .ok (.hashUpdate (immField c)) else .error .nbits
  else .error .mustBeZero

/-- `decode(c)` of R88: total on 32-bit words (R87), naming why a word is illegal. -/
def decode (c : Word) : Except Illegal Instr :=
  if opcField c = 0x00 then decodeZ c .nop
  else if opcField c = 0x01 then decodeSetRounds c
  else if opcField c = 0x10 then decodeC c
  else if opcField c = 0x20 then decodeZ c .hashInit
  else if opcField c = 0x21 then decodeHashUpdate c
  else if opcField c = 0x22 then decodeZ c .hashFinal
  else .error .opcode

/-- The BSZ bit of a block size (R82). -/
def BlockSize.bit : BlockSize → BitVec 1
  | .b64 => 0
  | .b128 => 1

/-- Format Z: OPC, then 24 zero bits (R81). -/
def encodeZ (opc : BitVec 8) : Word := opc ++ 0#24

/-- Format I: OPC, 16 zero bits, the immediate (R81). -/
def encodeI (opc imm : BitVec 8) : Word := opc ++ 0#16 ++ imm

/-- Format C: OPC 0x10, 19 zero bits, BSZ, DIR, MODE (R81). -/
def encodeC (mode : BitVec 3) (dir : BitVec 1) (bsz : BlockSize) : Word := 0x10#8 ++ 0#19 ++ bsz.bit ++ dir ++ mode

/-- The command word of a well-formed command, from the formats of R81 and the field values of R82 and R85. -/
def encode : Instr → Word
  | .nop => encodeZ 0x00
  | .setRounds roundval => encodeI 0x01 roundval
  | .ecbEnc bsz => encodeC 0 0 bsz
  | .ecbDec bsz => encodeC 0 1 bsz
  | .cbcEnc bsz => encodeC 1 0 bsz
  | .cbcDec bsz => encodeC 1 1 bsz
  | .cfbEnc bsz => encodeC 2 0 bsz
  | .cfbDec bsz => encodeC 2 1 bsz
  | .ofbEnc bsz => encodeC 3 0 bsz
  | .ofbDec bsz => encodeC 3 1 bsz
  | .ctrEnc bsz => encodeC 4 0 bsz
  | .ctrDec bsz => encodeC 4 1 bsz
  | .hashInit => encodeZ 0x20
  | .hashUpdate nbits => encodeI 0x21 nbits
  | .hashFinal => encodeZ 0x22

/-- A row of R86's match table: a word belongs to the row when `c & mask = pattern`. -/
structure MatchRow where
  mnemonic : String
  pattern : Word
  mask : Word
deriving DecidableEq, Repr

/-- The complete match table of R86, in its order. NBITS of the HASH_UPDATE row is legal only for 0..128. -/
def matchTable : List MatchRow :=
  [ ⟨"NOP", 0x00000000, 0xFFFFFFFF⟩,
    ⟨"SET_ROUNDS", 0x01000000, 0xFFFFFF00⟩,
    ⟨"ECB_ENC", 0x10000000, 0xFFFFFFEF⟩,
    ⟨"CBC_ENC", 0x10000001, 0xFFFFFFEF⟩,
    ⟨"CFB_ENC", 0x10000002, 0xFFFFFFEF⟩,
    ⟨"OFB_ENC", 0x10000003, 0xFFFFFFEF⟩,
    ⟨"CTR_ENC", 0x10000004, 0xFFFFFFEF⟩,
    ⟨"ECB_DEC", 0x10000008, 0xFFFFFFEF⟩,
    ⟨"CBC_DEC", 0x10000009, 0xFFFFFFEF⟩,
    ⟨"CFB_DEC", 0x1000000A, 0xFFFFFFEF⟩,
    ⟨"OFB_DEC", 0x1000000B, 0xFFFFFFEF⟩,
    ⟨"CTR_DEC", 0x1000000C, 0xFFFFFFEF⟩,
    ⟨"HASH_INIT", 0x20000000, 0xFFFFFFFF⟩,
    ⟨"HASH_UPDATE", 0x21000000, 0xFFFFFF00⟩,
    ⟨"HASH_FINAL", 0x22000000, 0xFFFFFFFF⟩ ]

/-- The mnemonic of a command, as R86 spells it. -/
def Instr.mnemonic : Instr → String
  | .nop => "NOP"
  | .setRounds _ => "SET_ROUNDS"
  | .ecbEnc _ => "ECB_ENC"
  | .ecbDec _ => "ECB_DEC"
  | .cbcEnc _ => "CBC_ENC"
  | .cbcDec _ => "CBC_DEC"
  | .cfbEnc _ => "CFB_ENC"
  | .cfbDec _ => "CFB_DEC"
  | .ofbEnc _ => "OFB_ENC"
  | .ofbDec _ => "OFB_DEC"
  | .ctrEnc _ => "CTR_ENC"
  | .ctrDec _ => "CTR_DEC"
  | .hashInit => "HASH_INIT"
  | .hashUpdate _ => "HASH_UPDATE"
  | .hashFinal => "HASH_FINAL"

/-- The decoder's answer for an opcode-table word of `nbits` bits: every command is one 32-bit word (R80), written
whole to CMD, so there is no byte order to choose. -/
def decodeTableWord (nbits w : Nat) : Option Instr := (decode (BitVec.ofNat 32 (w % 2 ^ nbits))).toOption

end Sys2Proof
end

