-- ==== Sys2Proof/Machine/State.lean ====
section
/-! DEFINITION. The state of the core (10_state.md), the host's side of its one port, the reasons a step can stop,
and the state after reset. -/

namespace Sys2Proof.Machine

/-- HSTATE, the hash streaming controller's state (R27). -/
inductive HState where
  | idle
  | ready
  | accum
  | final
deriving DecidableEq, Repr

/-- STATUS's fields (R22). Bits [31:6] are reserved and read as zero, so nothing stands for them here. -/
structure Status where
  /-- Bit 0: the most recent command was rejected (R23). -/
  lastFail : Bool
  /-- Bit 1, sticky: a command word with an illegal encoding was written (R24). -/
  cmdErr : Bool
  /-- Bit 2, sticky: SET_ROUNDS was given a value outside [9, 22] (R25). -/
  cfgErr : Bool
  /-- Bit 3, sticky: a hash command was issued in a state that does not allow it (R26). -/
  hashErr : Bool
  /-- Bits 5:4 (R27). -/
  hstate : HState
deriving DecidableEq, Repr

/-- The registers of the window (R20). CMD has no storage (R21). -/
inductive Reg where
  | cmd
  | status
  | rounds
  | key (i : Fin 4)
  | iv (i : Fin 4)
  | din (i : Fin 4)
  | dout (i : Fin 4)
  | msglenLo
  | msglenHi
  | h (j : Fin 8)
deriving DecidableEq, Repr

/-- Why a rejected command was rejected: the sticky flag it sets (R240, R242). -/
inductive Cause where
  | cmdErr
  | cfgErr
  | hashErr
deriving DecidableEq, Repr

/-- One host access at byte offset `off` from BASE (R13, R60). The offset is an integer, since the host may use an
address below BASE; `width` is in bytes. A write carries 32 bits; at a width other than 4 it is a bus error whatever
it carries (R63). -/
inductive Access where
  | read (off : Int) (width : Nat)
  | write (off : Int) (width : Nat) (v : Word)
deriving DecidableEq, Repr

/-- What the world outside the core can do to it: a host access, the platform's reset (R260), or a reset that
arrives while the CMD write of `c` is stalling the bus (R260, R262). -/
inductive Input where
  | access (a : Access)
  | reset
  | resetDuringCommand (c : Word)
deriving DecidableEq, Repr

/-- The faults of the model. -/
inductive Fault where
  /-- R241's `raise BusError(off)`: raised by a host access that breaks R63 (`checkAccess` in Machine/Ops.lean). It is
  a fault of that access, not of the machine: the step hands it to the host as the access's answer, leaves the core as
  it was, and goes on (log entry 5). Safe: it gives the host no data, so nothing can be proved about that data. -/
  | busError (off : Int)
deriving DecidableEq, Repr

/-- The refusals of the model. -/
inductive Refusal where
  /-- No meaning is written for the command. No arm of `exec` raises it. Safe: the machine stops. -/
  | notModelled (mnemonic : String)
deriving DecidableEq, Repr

/-- How one host access ended: the word a read returned, a write that completed, or an error response (R61, R62,
R241). -/
inductive Response where
  | data (v : Word)
  | done
  | error (f : Fault)
deriving DecidableEq, Repr

/-- The machine. The first eleven fields are the core's whole state (R20 to R39; INVENTORY.md); the last three are the
model's own, for what stands outside the core. -/
structure State where
  /-- STATUS (R22). -/
  status : Status
  /-- ROUNDS: RoundCount in [9, 22], held in the five bits that a read can show (R29). -/
  rounds : BitVec 5
  /-- KEY[0..3] (R30). -/
  key : Words4
  /-- IV[0..3] (R31). -/
  iv : Words4
  /-- DIN[0..3] (R32). -/
  din : Words4
  /-- DOUT[0..3] (R33). -/
  dout : Words4
  /-- MSGLEN_LO: bits [31:0] of MSGLEN (R34). -/
  msglenLo : Word
  /-- MSGLEN_HI: bits [63:32] of MSGLEN (R34). -/
  msglenHi : Word
  /-- H[0..7], the chaining value (R35). -/
  h : Words8
  /-- BUF, the hidden partial block: its first bit is bit 127 (R39). -/
  buf : BitVec 128
  /-- BUFBITS, the number of valid bits in BUF, in [0, 127] (R39). -/
  bufbits : Nat
  /-- MODEL'S OWN: what the world does next, in issue order (R73). Log entry 6. -/
  pending : List Input
  /-- MODEL'S OWN: the answers the host has got, newest first. Log entry 6. -/
  responses : List Response
  /-- MODEL'S OWN: how many free values have been drawn. Log entry 4. -/
  freeUses : Nat
deriving DecidableEq, Repr

/-- Four words of 0. -/
def zero4 : Words4 := ⟨0, 0, 0, 0⟩

/-- Eight words of 0. -/
def zero8 : Words8 := ⟨0, 0, 0, 0, 0, 0, 0, 0⟩

/-- STATUS after reset: every flag 0 and HSTATE IDLE (R42). -/
def Status.reset : Status := ⟨false, false, false, false, .idle⟩

/-- The machine right after reset (R42, R260), with nothing issued by the host yet. -/
def State.reset : State where
  status := Status.reset
  rounds := Config.roundsReset
  key := zero4
  iv := zero4
  din := zero4
  dout := zero4
  msglenLo := 0
  msglenHi := 0
  h := zero8
  buf := 0
  bufbits := 0
  pending := []
  responses := []
  freeUses := 0

end Sys2Proof.Machine
end

