-- ==== Sys2Proof/Machine/Bits.lean ====
section
/-! DEFINITION. Bit fields, byte lanes and bit strings (00_scope.md R10 to R12; 20_memory.md R67). -/

namespace Sys2Proof

/-- The 128-bit value of four words, word 0 first (R67, R11). -/
def Words4.cat (x : Words4) : BitVec 128 := x.w0 ++ x.w1 ++ x.w2 ++ x.w3

/-- Word-by-word XOR (R150). -/
def Words4.xor (x y : Words4) : Words4 := ⟨x.w0 ^^^ y.w0, x.w1 ^^^ y.w1, x.w2 ^^^ y.w2, x.w3 ^^^ y.w3⟩

/-- Word i of four. -/
def Words4.get (x : Words4) : Fin 4 → Word
  | 0 => x.w0
  | 1 => x.w1
  | 2 => x.w2
  | 3 => x.w3

/-- Four words with word i replaced. -/
def Words4.set (x : Words4) (i : Fin 4) (v : Word) : Words4 :=
  match i with
  | 0 => { x with w0 := v }
  | 1 => { x with w1 := v }
  | 2 => { x with w2 := v }
  | 3 => { x with w3 := v }

/-- Word j of eight. -/
def Words8.get (x : Words8) : Fin 8 → Word
  | 0 => x.w0
  | 1 => x.w1
  | 2 => x.w2
  | 3 => x.w3
  | 4 => x.w4
  | 5 => x.w5
  | 6 => x.w6
  | 7 => x.w7

end Sys2Proof

namespace Sys2Proof.Machine

/-- `byte_j(w) = w[8j+7:8j]` (R12). -/
def byteLane (w : Word) (j : Nat) : Byte := w.extractLsb' (8 * j) 8

/-- `be32(b0,b1,b2,b3)`: b0 is the most significant byte (R12). -/
def be32 (b0 b1 b2 b3 : Byte) : Word := b0 ++ b1 ++ b2 ++ b3

/-- `v` with bit k, so far 0, given the value b. -/
def putBit {n : Nat} (v : BitVec n) (k : Nat) (b : Bool) : BitVec n := v ||| ((BitVec.ofBool b).setWidth n <<< k)

/-- The bits of a 128-bit value, first bit first: bit p of the string is bit 127 - p of the value (R67). -/
def bitsOf (v : BitVec 128) : List Bool := (List.range 128).map fun p => v.getMsbD p

/-- The 128-bit value whose bits from position p on are the string's, and 0 elsewhere. -/
def blockFrom : Nat → List Bool → BitVec 128
  | _, [] => 0
  | p, b :: rest => (if b then BitVec.twoPow 128 127 >>> p else 0) ||| blockFrom (p + 1) rest

/-- `pad128(s)` of R203: s with zero bits appended up to 128 bits. -/
def pad128 (s : List Bool) : BitVec 128 := blockFrom 0 s

/-- The four words of a 128-bit value, word 0 first (R67). -/
def words (v : BitVec 128) : Words4 :=
  ⟨v.extractLsb' 96 32, v.extractLsb' 64 32, v.extractLsb' 32 32, v.extractLsb' 0 32⟩

end Sys2Proof.Machine
end

