-- ==== Sys2Proof/Machine/Primitives.lean ====
section
/-! DEFINITION. The round primitives (40_round_primitives.md): pure functions that the cipher, the key schedule and the
hash share. -/

namespace Sys2Proof.Machine

/-- The table of R100, one 128-bit value a row: the entry of column 0 is the row's most significant byte. -/
def sboxRows : List (BitVec 128) :=
  [ 0x637c777bf26b6fc53001672bfed7ab76, 0xca82c97dfa5947f0add4a2af9ca472c0,
    0xb7fd9326363ff7cc34a5e5f171d83115, 0x04c723c31896059a071280e2eb27b275,
    0x09832c1a1b6e5aa0523bd6b329e32f84, 0x53d100ed20fcb15b6acbbe394a4c58cf,
    0xd0efaafb434d338545f9027f503c9fa8, 0x51a3408f929d38f5bcb6da2110fff3d2,
    0xcd0c13ec5f974417c4a77e3d645d1973, 0x60814fdc222a908846eeb814de5e0bdb,
    0xe0323a0a4906245cc2d3ac629195e479, 0xe7c8376d8dd54ea96c56f4ea657aae08,
    0xba78252e1ca6b4c6e8dd741f4bbd8b8a, 0x703eb5664803f60e613557b986c11d9e,
    0xe1f8981169d98e949b1e87e9ce5528df, 0x8ca1890dbfe6426841992d0fb054bb16 ]

/-- `SB(b) = SBOX[b]`: row b / 16, column b mod 16 of R100's table. -/
def sb (b : Byte) : Byte := (sboxRows.getD (b.toNat / 16) 0).extractLsb' (8 * (15 - b.toNat % 16)) 8

/-- SubWord: SB on each byte, no byte moving (R101). -/
def subWord (w : Word) : Word :=
  sb (byteLane w 3) ++ sb (byteLane w 2) ++ sb (byteLane w 1) ++ sb (byteLane w 0)

/-- Sub64: SB on each of 8 bytes; it is SubWord on the two halves (R101). -/
def sub64 (x : BitVec 64) : BitVec 64 := subWord (x.extractLsb' 32 32) ++ subWord (x.extractLsb' 0 32)

/-- Multiplication by 2 in GF(2^8) modulo 0x11B (R102). -/
def mul2 (b : Byte) : Byte := (b <<< 1) ^^^ (if b.getLsbD 7 then 0x1B else 0x00)

/-- Multiplication by 3 (R102). -/
def mul3 (b : Byte) : Byte := mul2 b ^^^ b

/-- MixColumn (R102), column byte a_j and output byte o_j being byte lane j (R103). -/
def mixColumn (w : Word) : Word :=
  let a0 := byteLane w 0
  let a1 := byteLane w 1
  let a2 := byteLane w 2
  let a3 := byteLane w 3
  let o0 := mul2 a0 ^^^ mul3 a1 ^^^ a2 ^^^ a3
  let o1 := a0 ^^^ mul2 a1 ^^^ mul3 a2 ^^^ a3
  let o2 := a0 ^^^ a1 ^^^ mul2 a2 ^^^ mul3 a3
  let o3 := mul3 a0 ^^^ a1 ^^^ a2 ^^^ mul2 a3
  o3 ++ o2 ++ o1 ++ o0

/-- The loop of R104 from output bit k on: `left` bits to go, the cursors at `hi` and `lo`, `y` the bits made so far. -/
def permuteFrom {n : Nat} (x m : BitVec n) : (left k hi lo : Nat) → BitVec n → BitVec n
  | 0, _, _, _, y => y
  | left + 1, k, hi, lo, y =>
    if m.getLsbD k then permuteFrom x m left (k + 1) (hi - 1) lo (putBit y k (x.getLsbD hi))
    else permuteFrom x m left (k + 1) hi (lo + 1) (putBit y k (x.getLsbD lo))

/-- `Permute_N(x, m)` (R104): set mask bits take from the high cursor, clear ones from the low cursor. The hardware
uses it at N = 32 and N = 64. -/
def permute {n : Nat} (x m : BitVec n) : BitVec n := permuteFrom x m n 0 (n - 1) 0 0

/-- `G(x) = MixColumn(SubWord(x))` (R106). -/
def g (x : Word) : Word := mixColumn (subWord x)

end Sys2Proof.Machine
end

