-- ==== Sys2Proof/Machine/HashCore.lean ====
section
/-! DEFINITION. The hash key schedule (44_hash_key_schedule.md) and the compression function
(45_hash_compression.md), for given hash constants. -/

namespace Sys2Proof

/-- The key of the internal cipher: the first half of the chaining value (R192). -/
def Words8.firstHalf (x : Words8) : Words4 := ⟨x.w0, x.w1, x.w2, x.w3⟩

/-- The initial chaining value `HASH_IV[0..7]` (R201). -/
def HashParams.initial (p : HashParams) : Words8 := ⟨p.iv 0, p.iv 1, p.iv 2, p.iv 3, p.iv 4, p.iv 5, p.iv 6, p.iv 7⟩

end Sys2Proof

namespace Sys2Proof.Machine

/-- The word that enters the hash key register in round i: `G(k[2] ^ HASH_RC[i]) ^ k[3]` (R180). -/
def hksWord (p : HashParams) (i : Nat) (k : Words4) : Word := g (k.w2 ^^^ p.rc (Fin.ofNat 64 i)) ^^^ k.w3

/-- The hash key register after round i: the new word enters at the front and old k[3] leaves (R180, D26). -/
def hksShift (p : HashParams) (i : Nat) (k : Words4) : Words4 := ⟨hksWord p i k, k.w0, k.w1, k.w2⟩

/-- The loop of R180 from round i on, `left` rounds to go: each round emits k[0], then shifts. -/
def hksFrom (p : HashParams) : (left i : Nat) → Words4 → List Word
  | 0, _, _ => []
  | left + 1, i, k => k.w0 :: hksFrom p left (i + 1) (hksShift p i k)

/-- `HKS(k0, k1, k2, k3)`: the round keys RK[0..63] (R180). -/
def hks (p : HashParams) (k : Words4) : List Word := hksFrom p 64 0 k

/-- The combining function `Fh(a, b)`: G on each word, then the low half-words change places (R190, D25). -/
def fh (a b : Word) : Word × Word :=
  let z0 := g a
  let z1 := g b
  (z0.extractLsb' 16 16 ++ z1.extractLsb' 0 16, z1.extractLsb' 16 16 ++ z0.extractLsb' 0 16)

/-- One compression round: Fh on words[4:6) with the round key in X[4], XORed into words[6:8), which then enters at
the front while every other pair moves up (R191, D24). -/
def compressRound (x : Words8) (rk : Word) : Words8 :=
  let y := fh (x.w4 ^^^ rk) x.w5
  ⟨x.w6 ^^^ y.1, x.w7 ^^^ y.2, x.w0, x.w1, x.w2, x.w3, x.w4, x.w5⟩

/-- `X = M ++ (H[4], H[5], H[6], H[7])` (R192, D23). -/
def workingRegister (h : Words8) (m : Words4) : Words8 := ⟨m.w0, m.w1, m.w2, m.w3, h.w4, h.w5, h.w6, h.w7⟩

/-- `Compress(H, M)`: 64 rounds, and the working register is the new chaining value, with no feed-forward (R191,
R193). -/
def compress (p : HashParams) (h : Words8) (m : Words4) : Words8 :=
  (hks p h.firstHalf).foldl compressRound (workingRegister h m)

end Sys2Proof.Machine
end

