-- ==== Sys2Proof/Machine/KeySchedule.lean ====
section
/-! DEFINITION. The CHIMA key schedule (41_key_schedule.md). -/

namespace Sys2Proof.Machine

/-- `RCON[j]` for j in 1..10 (R121): RCON[1] = 1 and each next one is mul2 of the one before. -/
def rcon : Nat → Byte
  | 0 => 0
  | 1 => 0x01
  | j + 2 => mul2 (rcon (j + 1))

/-- `RotWord(w) = rotl_32(w, 8)` (R123). -/
def rotWord (w : Word) : Word := w.rotateLeft 8

/-- Pool word i, from the word four places back and the word before, for i in 4..43 (R122). -/
def scheduleWord (i : Nat) (back4 back1 : Word) : Word :=
  back4 ^^^ (if i % 4 = 0 then subWord (rotWord back1) ^^^ ((rcon (i / 4)).setWidth 32 <<< 24) else back1)

/-- Pool word i, from the pool so far (R122). -/
def nextPoolWord (pool : List Word) (i : Nat) : Word := scheduleWord i (pool.getD (i - 4) 0) (pool.getD (i - 1) 0)

/-- The loop of R122 from pool word i on, `left` words to go. -/
def keyExpandFrom : (left i : Nat) → List Word → List Word
  | 0, _, pool => pool
  | left + 1, i, pool => keyExpandFrom left (i + 1) (pool ++ [nextPoolWord pool i])

/-- `KeyExpand(KEY)`: the pool W[0..43] (R120, R122). It depends on KEY alone (R124). -/
def keyExpand (key : Words4) : List Word := keyExpandFrom 40 4 [key.w0, key.w1, key.w2, key.w3]

/-- `W[i]`, the index taken modulo 44 as R125 allows; for every reachable round it is i itself. -/
def poolWord (pool : List Word) (i : Nat) : Word := pool.getD (i % 44) 0

/-- `K1_r = W[2r]` (R125). -/
def roundKey1 (pool : List Word) (r : Nat) : Word := poolWord pool (2 * r)

/-- `K2_r = W[2r+1]` (R125). -/
def roundKey2 (pool : List Word) (r : Nat) : Word := poolWord pool (2 * r + 1)

end Sys2Proof.Machine
end

