-- ==== Sys2Proof/Machine/Feistel.lean ====
section
/-! DEFINITION. The Feistel engine (42_feistel_engine.md). -/

namespace Sys2Proof.Machine

/-- The 64-bit round function (R130). -/
def f32 (x k1 k2 : Word) : Word := permute (subWord (x ^^^ k1)) k2

/-- Encryption round r of a 64-bit block (R131). -/
def encRound64 (pool : List Word) (b : Word × Word) (r : Nat) : Word × Word :=
  (b.2, b.1 ^^^ f32 b.2 (roundKey1 pool r) (roundKey2 pool r))

/-- Decryption round r of a 64-bit block (R132). -/
def decRound64 (pool : List Word) (b : Word × Word) (r : Nat) : Word × Word :=
  (b.2 ^^^ f32 b.1 (roundKey1 pool r) (roundKey2 pool r), b.1)

/-- `Enc64(L, R, W, n)`: rounds 0 to n-1 (R131). -/
def enc64 (pool : List Word) (n : Nat) (b : Word × Word) : Word × Word := (List.range n).foldl (encRound64 pool) b

/-- `Dec64(L, R, W, n)`: rounds n-1 down to 0 (R132). -/
def dec64 (pool : List Word) (n : Nat) (b : Word × Word) : Word × Word :=
  (List.range n).reverse.foldl (decRound64 pool) b

/-- The 128-bit round function: the key is also the mask (R133). -/
def f64 (x k : BitVec 64) : BitVec 64 := permute (sub64 (x ^^^ k)) k

/-- `K = W[2r] ++ W[2r+1]` (R133, R134). -/
def roundKey64 (pool : List Word) (r : Nat) : BitVec 64 := roundKey1 pool r ++ roundKey2 pool r

/-- Encryption round r of a 128-bit block (R134). -/
def encRound128 (pool : List Word) (b : BitVec 64 × BitVec 64) (r : Nat) : BitVec 64 × BitVec 64 :=
  (b.2, b.1 ^^^ f64 b.2 (roundKey64 pool r))

/-- Decryption round r of a 128-bit block (R135). -/
def decRound128 (pool : List Word) (b : BitVec 64 × BitVec 64) (r : Nat) : BitVec 64 × BitVec 64 :=
  (b.2 ^^^ f64 b.1 (roundKey64 pool r), b.1)

/-- `L = b[0] ++ b[1]`, `R = b[2] ++ b[3]` (R134, R136). -/
def halves (b : Words4) : BitVec 64 × BitVec 64 := (b.w0 ++ b.w1, b.w2 ++ b.w3)

/-- `(L[63:32], L[31:0], R[63:32], R[31:0])` (R134). -/
def fromHalves (b : BitVec 64 × BitVec 64) : Words4 :=
  ⟨b.1.extractLsb' 32 32, b.1.extractLsb' 0 32, b.2.extractLsb' 32 32, b.2.extractLsb' 0 32⟩

/-- `Enc128(b, W, n)` (R134). -/
def enc128 (pool : List Word) (n : Nat) (b : Words4) : Words4 :=
  fromHalves ((List.range n).foldl (encRound128 pool) (halves b))

/-- `Dec128(b, W, n)` (R135). -/
def dec128 (pool : List Word) (n : Nat) (b : Words4) : Words4 :=
  fromHalves ((List.range n).reverse.foldl (decRound128 pool) (halves b))

/-- A 64-bit block held in four words: the two halves, then zeros (R136, R151). -/
def block64 (b : Word × Word) : Words4 := ⟨b.1, b.2, 0, 0⟩

/-- `FE(bsz, b, W, n)` (R139). A 64-bit block is words 0 and 1 of its four. -/
def fe (bsz : BlockSize) (pool : List Word) (n : Nat) (b : Words4) : Words4 :=
  match bsz with
  | .b64 => block64 (enc64 pool n (b.w0, b.w1))
  | .b128 => enc128 pool n b

/-- `FD(bsz, b, W, n)` (R139). -/
def fd (bsz : BlockSize) (pool : List Word) (n : Nat) (b : Words4) : Words4 :=
  match bsz with
  | .b64 => block64 (dec64 pool n (b.w0, b.w1))
  | .b128 => dec128 pool n b

end Sys2Proof.Machine
end

