-- ==== Sys2Proof/Machine/Flags.lean ====
section
/-! DEFINITION. STATUS: its word, and every way it is written (10_state.md R22 to R28, R41). -/

namespace Sys2Proof.Machine

/-- The 2-bit code of HSTATE (R27). -/
def HState.code : HState → BitVec 2
  | .idle => 0
  | .ready => 1
  | .accum => 2
  | .final => 3

/-- HASH_UPDATE and HASH_FINAL are allowed in READY and ACCUM only (R200, R209). -/
def HState.accepts : HState → Bool
  | .idle => false
  | .ready => true
  | .accum => true
  | .final => false

/-- The word a read of STATUS returns (R22): bits [31:6] read as zero. -/
def Status.word (st : Status) : Word :=
  0#26 ++ st.hstate.code ++ BitVec.ofBool st.hashErr ++ BitVec.ofBool st.cfgErr ++ BitVec.ofBool st.cmdErr ++
    BitVec.ofBool st.lastFail

/-- A host write of v to STATUS (R28): a 1 in bits 1, 2 and 3 clears that flag, and nothing else changes. -/
def Status.acknowledge (st : Status) (v : Word) : Status :=
  { st with
    cmdErr := st.cmdErr && !v.getLsbD 1
    cfgErr := st.cfgErr && !v.getLsbD 2
    hashErr := st.hashErr && !v.getLsbD 3 }

/-- A command that completes with its full effect: LAST_FAIL becomes 0 (R23). -/
def Status.succeed (st : Status) : Status := { st with lastFail := false }

/-- `reject(CAUSE)` (R242): LAST_FAIL and the cause's sticky flag become 1; flags already set stay set (R250). -/
def Status.reject (st : Status) : Cause → Status
  | .cmdErr => { st with lastFail := true, cmdErr := true }
  | .cfgErr => { st with lastFail := true, cfgErr := true }
  | .hashErr => { st with lastFail := true, hashErr := true }

/-- The cause code of a rejection: the bit number of its STATUS flag (R240). -/
def Cause.code : Cause → Nat
  | .cmdErr => 1
  | .cfgErr => 2
  | .hashErr => 3

/-- STATUS after a hash command that succeeded: HSTATE moves and LAST_FAIL becomes 0 (R41). -/
def Status.hashDone (st : Status) (hs : HState) : Status := { st.succeed with hstate := hs }

end Sys2Proof.Machine
end

