-- ==== Sys2Proof/Machine/Operands.lean ====
section
/-! DEFINITION. The operands of the commands: which registers each one reads, and how (30_encoding.md R84; 43_cipher_modes.md
R150, R151; 46_hash_streaming.md R203, R206, R207), and the byte views of 20_memory.md R65 to R68. -/

namespace Sys2Proof.Machine

/-- The words of a register group that a block of this size uses: words 0 and 1 only for a 64-bit block, whose other
two words count as 0 (R150, R151). -/
def blockOf (bsz : BlockSize) (x : Words4) : Words4 :=
  match bsz with
  | .b64 => ⟨x.w0, x.w1, 0, 0⟩
  | .b128 => x

/-- P, the input block (R150). -/
def inputBlock (bsz : BlockSize) (s : State) : Words4 := blockOf bsz s.din

/-- I, the IV, counter or feedback block (R150). -/
def ivBlock (bsz : BlockSize) (s : State) : Words4 := blockOf bsz s.iv

/-- W, expanded from the current KEY at every cipher command (R124, R150). -/
def pool (s : State) : List Word := keyExpand s.key

/-- `n = ROUNDS` (R150). -/
def roundCount (s : State) : Nat := s.rounds.toNat

/-- ROUNDVAL is in [9, 22] (R231). -/
def roundvalLegal (roundval : BitVec 8) : Bool := decide (9 ≤ roundval.toNat ∧ roundval.toNat ≤ 22)

/-- The message chunk: the first NBITS bits of DIN; later bits are ignored (R203). -/
def chunk (nbits : Nat) (s : State) : List Bool := (bitsOf s.din.cat).take nbits

/-- The bits not yet compressed: `first(BUF, BUFBITS)` (R203, R211). -/
def buffered (s : State) : List Bool := (bitsOf s.buf).take s.bufbits

/-- MSGLEN = `MSGLEN_HI ++ MSGLEN_LO` (R34). -/
def msglen (s : State) : BitVec 64 := s.msglenHi ++ s.msglenLo

/-- P1, the padding block: the buffered bits, a single 1 bit, then zeros (R205, R206). -/
def paddingBlock (s : State) : Words4 := words (pad128 (buffered s ++ [true]))

/-- P2, the length block: MSGLEN right-justified in the last two words (R207). -/
def lengthBlock (s : State) : Words4 := ⟨0, 0, (msglen s).extractLsb' 32 32, (msglen s).extractLsb' 0 32⟩

/-- Byte `4i + j` of four words, most significant byte of each word first: key bytes (R65), the bytes of a block, an
IV or an output (R66), and the bytes of a message chunk (R67). -/
def byteOfBlock (x : Words4) (i j : Fin 4) : Byte := byteLane (x.get i) (3 - j.val)

/-- Digest byte `d[4j + m] = byte_{3-m}(H[j])` (R68, R208). -/
def digestByte (s : State) (j : Fin 8) (m : Fin 4) : Byte := byteLane (s.h.get j) (3 - m.val)

end Sys2Proof.Machine
end

