-- ==== Sys2Proof/Machine/Ops.lean ====
section
/-! DEFINITION. The operations the commands and the port share: the register map and its access rules (10_state.md R20;
20_memory.md R60 to R63), the two ways an error is reported (60_exceptions.md R241, R242) and its acknowledgement (R249),
reset (70_reset_and_hazards.md R260), and the frames of the cipher and hash commands. -/

namespace Sys2Proof.Machine

/-- The answer of a command or an access of this machine. -/
abbrev Result := Host.Outcome State Fault Refusal

/-! ## The register window -/

/-- The byte offset of a register (R20). -/
def Reg.offset : Reg → Nat
  | .cmd => 0x00
  | .status => 0x04
  | .rounds => 0x08
  | .key i => 0x10 + 4 * i.val
  | .iv i => 0x20 + 4 * i.val
  | .din i => 0x30 + 4 * i.val
  | .dout i => 0x40 + 4 * i.val
  | .msglenLo => 0x50
  | .msglenHi => 0x54
  | .h j => 0x60 + 4 * j.val

/-- The register at word k of the window, that is at offset 4k (R20). Words 3, 22 and 23 are the reserved offsets
0x0C, 0x58 and 0x5C, and words from 32 up are outside the window (R36). -/
def regAtWord (k : Nat) : Option Reg :=
  match k with
  | 0 => some .cmd
  | 1 => some .status
  | 2 => some .rounds
  | 4 => some (.key 0)
  | 5 => some (.key 1)
  | 6 => some (.key 2)
  | 7 => some (.key 3)
  | 8 => some (.iv 0)
  | 9 => some (.iv 1)
  | 10 => some (.iv 2)
  | 11 => some (.iv 3)
  | 12 => some (.din 0)
  | 13 => some (.din 1)
  | 14 => some (.din 2)
  | 15 => some (.din 3)
  | 16 => some (.dout 0)
  | 17 => some (.dout 1)
  | 18 => some (.dout 2)
  | 19 => some (.dout 3)
  | 20 => some .msglenLo
  | 21 => some .msglenHi
  | 24 => some (.h 0)
  | 25 => some (.h 1)
  | 26 => some (.h 2)
  | 27 => some (.h 3)
  | 28 => some (.h 4)
  | 29 => some (.h 5)
  | 30 => some (.h 6)
  | 31 => some (.h 7)
  | _ => none

/-- The register at an offset from BASE: none at a misaligned, reserved or outside offset (R63, conditions 2 to 4). -/
def regAt (off : Int) : Option Reg := if 0 ≤ off ∧ off % 4 = 0 then regAtWord (off / 4).toNat else none

/-- Every register but the write-only CMD may be read (R20, R63 condition 5). -/
def Reg.readable : Reg → Bool
  | .cmd => false
  | .status | .rounds | .key _ | .iv _ | .din _ | .dout _ | .msglenLo | .msglenHi | .h _ => true

/-- ROUNDS, DOUT and H are read-only (R20, R63 condition 6). -/
def Reg.writable : Reg → Bool
  | .rounds | .dout _ | .h _ => false
  | .cmd | .status | .key _ | .iv _ | .din _ | .msglenLo | .msglenHi => true

/-- What an access that R63 lets through does. -/
inductive RegAccess where
  | read (r : Reg)
  | write (r : Reg) (v : Word)
deriving DecidableEq, Repr

/-- R63, `raise BusError(off)`: a host access is a bus error when its width is not 4 bytes, when no register stands at
its offset, when it reads CMD, or when it writes a read-only register. -/
def checkAccess : Access → Except Fault RegAccess
  | .read off width =>
    match regAt off with
    | some r => if width = 4 ∧ r.readable then .ok (.read r) else .error (.busError off)
    | none => .error (.busError off)
  | .write off width v =>
    match regAt off with
    | some r => if width = 4 ∧ r.writable then .ok (.write r v) else .error (.busError off)
    | none => .error (.busError off)

/-- The access of host address `addr`: its offset is counted from BASE (R13, R60). -/
def windowOffset (addr : Nat) : Int := (addr : Int) - (Config.base : Int)

/-- What a read of a register returns (R61). CMD has no storage, and `checkAccess` lets no read of it through. -/
def readReg (s : State) : Reg → Option Word
  | .cmd => none
  | .status => some s.status.word
  | .rounds => some (s.rounds.setWidth 32)
  | .key i => some (s.key.get i)
  | .iv i => some (s.iv.get i)
  | .din i => some (s.din.get i)
  | .dout i => some (s.dout.get i)
  | .msglenLo => some s.msglenLo
  | .msglenHi => some s.msglenHi
  | .h j => some (s.h.get j)

/-- What a write of v to a register other than CMD does (R62): a data register becomes v, STATUS is acknowledged
(R28). `checkAccess` lets no write of a read-only register through; here it changes nothing. -/
def writeReg (s : State) (r : Reg) (v : Word) : State :=
  match r with
  | .status => { s with status := s.status.acknowledge v }
  | .key i => { s with key := s.key.set i v }
  | .iv i => { s with iv := s.iv.set i v }
  | .din i => { s with din := s.din.set i v }
  | .msglenLo => { s with msglenLo := v }
  | .msglenHi => { s with msglenHi := v }
  | .cmd | .rounds | .dout _ | .h _ => s

/-! ## How an access and a command end -/

/-- The answer to an access goes back to the host. -/
def respond (s : State) (r : Response) : State := { s with responses := r :: s.responses }

/-- A command that completes with its full effect (R23). -/
def succeed (s : State) : State := { s with status := s.status.succeed }

/-- `reject(CAUSE)` (R242): the core's one way of taking an exception. It writes STATUS and nothing else, and control
stays with the host (R249). -/
def reject (s : State) (cause : Cause) : State := { s with status := s.status.reject cause }

/-- The acknowledgement of errors, the core's nearest thing to a return from an exception (R249): a STATUS write. -/
def acknowledge (s : State) (v : Word) : State := writeReg s .status v

/-- Reset (R42, R260): the core's whole state becomes the reset state. What stands outside the core stays. -/
def resetCore (s : State) : State :=
  { State.reset with pending := s.pending, responses := s.responses, freeUses := s.freeUses }

/-- How a CMD write that a reset cuts off ends on the bus: at the platform's choice (R260), so with or without an
error, by a free value (log entry 4). -/
def cutOffResponse (n : Nat) : Response :=
  if Config.cutOffAccessCompletes n then .done else .error (.busError 0x00)

/-- Reset while a command stalls the bus (R260): the command has no effect, the core is reset, and the stalled access
ends. -/
def resetDuring (s : State) : State :=
  respond { resetCore s with freeUses := s.freeUses + 1 } (cutOffResponse s.freeUses)

/-! ## The frames of the commands -/

/-- The frame of R150: DOUT gets the mode's output block, its words 2 and 3 being 0 for a 64-bit block (R151), and
LAST_FAIL becomes 0. -/
def cipherDone (s : State) (bsz : BlockSize) (o : Words4) : State := succeed { s with dout := blockOf bsz o }

/-- The keystream form of R156 to R161: `O = FE(BSZ, I, W, n) ^ P`. -/
def keystreamXor (bsz : BlockSize) (s : State) : Words4 :=
  (fe bsz (pool s) (roundCount s) (ivBlock bsz s)).xor (inputBlock bsz s)

/-- HASH_INIT's effect (R201) under the hash constants p. -/
def hashInitWith (p : HashParams) (s : State) : State :=
  { s with
    h := p.initial
    msglenLo := 0
    msglenHi := 0
    buf := 0
    bufbits := 0
    status := s.status.hashDone .ready }

/-- The buffer takes the bits t, fewer than 128 of them (R203, R39). -/
def storeBits (s : State) (t : List Bool) : State := { s with buf := pad128 t, bufbits := t.length }

/-- The bits t, not yet compressed, are consumed (R203): a full block is compressed, and the rest is buffered. -/
def absorb (p : HashParams) (s : State) (t : List Bool) : State :=
  if 128 ≤ t.length then
    storeBits { s with h := compress p s.h (words (pad128 (t.take 128))) } (t.drop 128)
  else storeBits s t

/-- HASH_UPDATE NBITS (R203) under the hash constants p, for a legal NBITS. -/
def hashUpdateWith (p : HashParams) (nbits : Nat) (s : State) : State :=
  if s.status.hstate.accepts then
    let s' := absorb p s (buffered s ++ chunk nbits s)
    { s' with status := s'.status.hashDone .accum }
  else reject s .hashErr

/-- HASH_FINAL (R205) under the hash constants p: the padding block, then the length block, are compressed. -/
def hashFinalWith (p : HashParams) (s : State) : State :=
  if s.status.hstate.accepts then
    { s with
      h := compress p (compress p s.h (paddingBlock s)) (lengthBlock s)
      buf := 0
      bufbits := 0
      status := s.status.hashDone .final }
  else reject s .hashErr

end Sys2Proof.Machine
end

