-- ==== Sys2Proof/Machine/CipherModes.lean ====
section
/-! DEFINITION. The ten cipher commands (43_cipher_modes.md), each by its mode's own formula in the frame of R150. -/

namespace Sys2Proof.Machine

/-- ECB_ENC (R152): `O = FE(BSZ, P, W, n)`. -/
def execEcbEnc (bsz : BlockSize) (s : State) : Result :=
  .next (cipherDone s bsz (fe bsz (pool s) (roundCount s) (inputBlock bsz s)))

/-- ECB_DEC (R153): `O = FD(BSZ, P, W, n)`. -/
def execEcbDec (bsz : BlockSize) (s : State) : Result :=
  .next (cipherDone s bsz (fd bsz (pool s) (roundCount s) (inputBlock bsz s)))

/-- CBC_ENC (R154): `O = FE(BSZ, P ^ I, W, n)`. -/
def execCbcEnc (bsz : BlockSize) (s : State) : Result :=
  .next (cipherDone s bsz (fe bsz (pool s) (roundCount s) ((inputBlock bsz s).xor (ivBlock bsz s))))

/-- CBC_DEC (R155): `O = FD(BSZ, P, W, n) ^ I`. -/
def execCbcDec (bsz : BlockSize) (s : State) : Result :=
  .next (cipherDone s bsz ((fd bsz (pool s) (roundCount s) (inputBlock bsz s)).xor (ivBlock bsz s)))

/-- CFB_ENC (R156): `O = FE(BSZ, I, W, n) ^ P`. -/
def execCfbEnc (bsz : BlockSize) (s : State) : Result := .next (cipherDone s bsz (keystreamXor bsz s))

/-- CFB_DEC (R157): the same function as CFB_ENC, by FE and not FD. -/
def execCfbDec (bsz : BlockSize) (s : State) : Result := .next (cipherDone s bsz (keystreamXor bsz s))

/-- OFB_ENC (R158): `O = FE(BSZ, I, W, n) ^ P`. -/
def execOfbEnc (bsz : BlockSize) (s : State) : Result := .next (cipherDone s bsz (keystreamXor bsz s))

/-- OFB_DEC (R159): identical function as OFB_ENC. -/
def execOfbDec (bsz : BlockSize) (s : State) : Result := .next (cipherDone s bsz (keystreamXor bsz s))

/-- CTR_ENC (R160): `O = FE(BSZ, I, W, n) ^ P`; the counter is not incremented (R162). -/
def execCtrEnc (bsz : BlockSize) (s : State) : Result := .next (cipherDone s bsz (keystreamXor bsz s))

/-- CTR_DEC (R161): identical function as CTR_ENC. -/
def execCtrDec (bsz : BlockSize) (s : State) : Result := .next (cipherDone s bsz (keystreamXor bsz s))

end Sys2Proof.Machine
end

