-- ==== Sys2Proof/Machine/Control.lean ====
section
/-! DEFINITION. The control commands (47_control.md). -/

namespace Sys2Proof.Machine

/-- NOP (R230): LAST_FAIL becomes 0 and nothing else changes. -/
def execNop (s : State) : Result := .next (succeed s)

/-- SET_ROUNDS ROUNDVAL (R231): a value in [9, 22] becomes ROUNDS; any other is rejected with CFG_ERR. -/
def execSetRounds (roundval : BitVec 8) (s : State) : Result :=
  if roundvalLegal roundval then .next (succeed { s with rounds := roundval.setWidth 5 })
  else .next (reject s .cfgErr)

end Sys2Proof.Machine
end

