-- ==== Sys2Proof/Machine/HashStreaming.lean ====
section
/-! DEFINITION. The hash streaming commands (46_hash_streaming.md), under the hardware's own hash constants. -/

namespace Sys2Proof.Machine

/-- HASH_INIT (R201): allowed in every HSTATE. -/
def execHashInit (s : State) : Result := .next (hashInitWith Config.hash s)

/-- HASH_UPDATE NBITS (R202, R203, R209). An NBITS above 128 is no command but an illegal encoding, rejected with
CMD_ERR before HSTATE is looked at (R89, R246); the decoder never makes such a term. -/
def execHashUpdate (nbits : BitVec 8) (s : State) : Result :=
  if nbits.toNat ≤ 128 then .next (hashUpdateWith Config.hash nbits.toNat s) else .next (reject s .cmdErr)

/-- HASH_FINAL (R205, R209). -/
def execHashFinal (s : State) : Result := .next (hashFinalWith Config.hash s)

end Sys2Proof.Machine
end

