-- ==== Sys2Proof/Machine/Dispatch.lean ====
section
/-! DEFINITION. `execute(cmd)` of 30_encoding.md R88: each command to its own meaning. -/

namespace Sys2Proof.Machine

/-- The effect of a command. -/
def exec (i : Instr) (s : State) : Host.Outcome State Fault Refusal :=
  match i with
  | .nop => Sys2Proof.Machine.execNop s
  | .setRounds roundval => Sys2Proof.Machine.execSetRounds roundval s
  | .ecbEnc bsz => Sys2Proof.Machine.execEcbEnc bsz s
  | .ecbDec bsz => Sys2Proof.Machine.execEcbDec bsz s
  | .cbcEnc bsz => Sys2Proof.Machine.execCbcEnc bsz s
  | .cbcDec bsz => Sys2Proof.Machine.execCbcDec bsz s
  | .cfbEnc bsz => Sys2Proof.Machine.execCfbEnc bsz s
  | .cfbDec bsz => Sys2Proof.Machine.execCfbDec bsz s
  | .ofbEnc bsz => Sys2Proof.Machine.execOfbEnc bsz s
  | .ofbDec bsz => Sys2Proof.Machine.execOfbDec bsz s
  | .ctrEnc bsz => Sys2Proof.Machine.execCtrEnc bsz s
  | .ctrDec bsz => Sys2Proof.Machine.execCtrDec bsz s
  | .hashInit => Sys2Proof.Machine.execHashInit s
  | .hashUpdate nbits => Sys2Proof.Machine.execHashUpdate nbits s
  | .hashFinal => Sys2Proof.Machine.execHashFinal s

end Sys2Proof.Machine
end

