-- ==== Sys2Proof/Machine/Port.lean ====
section
/-! DEFINITION. The host port: what one host access and one other input of the world do (20_memory.md R60 to R63, R71,
R73; 30_encoding.md R88; 70_reset_and_hazards.md R260, R262). -/

namespace Sys2Proof.Machine

/-- A CMD write of c (R88): an illegal word is rejected with CMD_ERR (R245), a legal one runs its command. -/
def runCommand (c : Word) (s : State) : Result :=
  match decode c with
  | .ok i => exec i s
  | .error _ => .next (reject s .cmdErr)

/-- The end of a write: the host gets its answer only once the command has written all its results (R262). -/
def answered (r : Result) : Result :=
  match r with
  | .next s => .next (respond s .done)
  | .fault f => .fault f
  | .refused f => .refused f

/-- One host access. A bus error changes no state of the core; its answer is an error instead of a value (R241). -/
def performAccess (a : Access) (s : State) : Result :=
  match checkAccess a with
  | .error f => .next (respond s (.error f))
  | .ok (.read r) =>
    match readReg s r with
    | some v => .next (respond s (.data v))
    | none => .next (respond s (.error (.busError r.offset)))
  | .ok (.write .cmd c) => answered (runCommand c s)
  | .ok (.write r v) => .next (respond (writeReg s r v) .done)

/-- One input of the world outside the core. -/
def performInput (i : Input) (s : State) : Result :=
  match i with
  | .access a => performAccess a s
  | .reset => .next (resetCore s)
  | .resetDuringCommand _ => .next (resetDuring s)

/-- The next input and the state without it; none when the world does nothing. -/
def nextInput (s : State) : Option (Input × State) :=
  match s.pending with
  | [] => none
  | i :: rest => some (i, { s with pending := rest })

/-- The host's write of command word c to CMD: offset 0x00, four bytes (R20, R88). -/
def commandWrite (c : Word) : Input := .access (.write 0x00 4 c)

/-- The command write that stands for an opcode-table word of `nbits` bits. -/
def tableWordWrite (nbits w : Nat) : Input := commandWrite (BitVec.ofNat 32 (w % 2 ^ nbits))

end Sys2Proof.Machine
end

