-- ==== Sys2Proof/Machine/Step.lean ====
section
/-! DEFINITION. One step of the machine: the next input takes effect, whole (20_memory.md R73; 70_reset_and_hazards.md
R262). -/

namespace Sys2Proof.Machine

/-- One step. The core has no program counter and fetches nothing: the sequence of host accesses is the program (R38,
R73). With no input the core is idle and nothing changes (R255; log entry 7). -/
def step (s : State) : Host.Outcome State Fault Refusal :=
  match nextInput s with
  | none => .next s
  | some (i, s') => performInput i s'

/-- `s` with the host's write of this command word to CMD as the next input, ahead of every other (log entry 6). -/
def State.withFetchWord (s : State) (nbits w : Nat) : State :=
  { s with pending := tableWordWrite nbits w :: s.pending }

end Sys2Proof.Machine
end

