-- ==== Sys2Proof/Machine/HostProgram.lean ====
section
/-! DEFINITION. Host programs (30_encoding.md R91 to R93): the lines of the spec's assembly syntax and the host accesses
each one stands for, and the source's software calls as such lines (46_hash_streaming.md R213; 00_scope.md R15). A host
program is no part of the core: it is what stands in `State.pending`. -/

namespace Sys2Proof.Machine

/-- A line of the assembly syntax (R91) or one of its pseudo-instructions (R92). -/
inductive AsmLine where
  /-- `WR <reg>, <value>`. -/
  | wr (r : Reg) (v : Word)
  /-- `RD <reg>`. -/
  | rd (r : Reg)
  /-- A command mnemonic: it stands for `WR CMD, <encoding>`. -/
  | command (i : Instr)
  /-- `LDKEY k0, k1, k2, k3`. -/
  | ldkey (k : Words4)
  /-- `LDIV v0, v1, v2, v3`. -/
  | ldiv (v : Words4)
  /-- `LDIV v0, v1`. -/
  | ldiv2 (v0 v1 : Word)
  /-- `LDIN d0, d1, d2, d3`. -/
  | ldin (d : Words4)
  /-- `LDIN d0, d1`. -/
  | ldin2 (d0 d1 : Word)
  /-- `SETLEN n`, n below 2^64. -/
  | setlen (n : BitVec 64)
  /-- `CLRERR`. -/
  | clrerr
deriving DecidableEq, Repr

/-- `MemWrite(BASE + off(reg), 4, value)` (R91). -/
def writeAccess (r : Reg) (v : Word) : Access := .write r.offset 4 v

/-- `MemRead(BASE + off(reg), 4)` (R91). -/
def readAccess (r : Reg) : Access := .read r.offset 4

/-- The host accesses of a line, in the order they are issued (R91, R92). -/
def AsmLine.accesses : AsmLine → List Access
  | .wr r v => [writeAccess r v]
  | .rd r => [readAccess r]
  | .command i => [writeAccess .cmd (encode i)]
  | .ldkey k =>
    [writeAccess (.key 0) k.w0, writeAccess (.key 1) k.w1, writeAccess (.key 2) k.w2, writeAccess (.key 3) k.w3]
  | .ldiv v => [writeAccess (.iv 0) v.w0, writeAccess (.iv 1) v.w1, writeAccess (.iv 2) v.w2, writeAccess (.iv 3) v.w3]
  | .ldiv2 v0 v1 => [writeAccess (.iv 0) v0, writeAccess (.iv 1) v1]
  | .ldin d =>
    [writeAccess (.din 0) d.w0, writeAccess (.din 1) d.w1, writeAccess (.din 2) d.w2, writeAccess (.din 3) d.w3]
  | .ldin2 d0 d1 => [writeAccess (.din 0) d0, writeAccess (.din 1) d1]
  | .setlen n => [writeAccess .msglenLo (n.extractLsb' 0 32), writeAccess .msglenHi (n.extractLsb' 32 32)]
  | .clrerr => [writeAccess .status 0x0000000E]

/-- The state in which the host goes on to issue the accesses of these lines, after those already pending. -/
def State.loadProgram (s : State) (lines : List AsmLine) : State :=
  { s with pending := s.pending ++ (lines.flatMap AsmLine.accesses).map .access }

/-- The first `n` 128-bit slices of a message, the last one being what is left of it (R213). -/
def slices : Nat → List Bool → List (List Bool)
  | 0, _ => []
  | n + 1, m => m.take 128 :: slices n (m.drop 128)

/-- The software call `Init()` (R213). -/
def softInit : List AsmLine := [.command .hashInit]

/-- The HASH_UPDATE commands of an `Update`: one for each slice, after the load of DIN with it (R213). A message of no bits
has no slice to load, and gets the one HASH_UPDATE that R15's "one or more" asks for, of 0 bits (log entry 20). -/
def updateLines (data : List Bool) : List AsmLine :=
  if data = [] then [.command (.hashUpdate 0)]
  else
    (slices ((data.length + 127) / 128) data).flatMap fun sl =>
      [.ldin (words (pad128 sl)), .command (.hashUpdate (BitVec.ofNat 8 sl.length))]

/-- The software call `Update(data, bitLength)` (R15, R213): it records bitLength, then appends the message bits. -/
def softUpdate (data : List Bool) : List AsmLine := .setlen (BitVec.ofNat 64 data.length) :: updateLines data

/-- The software call `Final()` and the reads of the digest (R213, R208). -/
def softFinal : List AsmLine := .command .hashFinal :: (List.finRange 8).map fun j => .rd (.h j)

end Sys2Proof.Machine
end

