-- ==== Sys2Proof/Safety.lean ====
section
/-! DEFINITION. What holds of every state the core can be in, in the terms the statements use. -/

namespace Sys2Proof.Machine

/-- R29: ROUNDS holds a value in [9, 22]. -/
abbrev State.roundsLegal (s : State) : Prop := 9 ≤ s.rounds.toNat ∧ s.rounds.toNat ≤ 22

/-- R39: BUFBITS is in [0, 127]. -/
abbrev State.bufbitsLegal (s : State) : Prop := s.bufbits ≤ 127

/-- R39: every bit of BUF after the first BUFBITS bits is 0 (`BUF[127-BUFBITS:0] == 0`), so that shifting the valid bits
out leaves nothing. -/
abbrev State.bufPadded (s : State) : Prop := s.buf <<< s.bufbits = 0#128

/-- The invariants the spec states of the core: R29 and R39. -/
abbrev State.Inv (s : State) : Prop := s.roundsLegal ∧ s.bufbitsLegal ∧ s.bufPadded

/-- The buffer holds message bits only while a message is being accumulated: reset, HASH_INIT and HASH_FINAL leave it
empty (R42, R201, R205), and only HASH_UPDATE, which leads to ACCUM, fills it (R203). -/
abbrev State.bufEmptyOutsideAccum (s : State) : Prop :=
  s.status.hstate ≠ .accum → s.bufbits = 0 ∧ s.buf = 0#128

/-- The sticky flag of a cause (R24 to R26, R240). -/
def Status.sticky (st : Status) : Cause → Bool
  | .cmdErr => st.cmdErr
  | .cfgErr => st.cfgErr
  | .hashErr => st.hashErr

/-- The byte offset of an access from BASE (R13). -/
def Access.offset : Access → Int
  | .read off _ => off
  | .write off _ _ => off

/-- The width of an access in bytes (R63, condition 1). -/
def Access.width : Access → Nat
  | .read _ width => width
  | .write _ width _ => width

/-- Whether an access is a read. -/
def Access.isRead : Access → Bool
  | .read _ _ => true
  | .write _ _ _ => false

/-- The inputs that reset the core (R260). -/
def Input.resets : Input → Bool
  | .access _ => false
  | .reset => true
  | .resetDuringCommand _ => true

end Sys2Proof.Machine
end

