-- ==== Sys2Proof/Certificates/Slice0/Obligations.lean ====
section
/-! DEFINITION. The statements for the provers. Where a state after is written as an update of the state before, every
field the update does not name keeps its value: that is the frame. -/

open Sys2Proof Sys2Proof.Machine

/-! ## Encoding -/

/-- Decode and encode agree (R81, R82, R85, R88): every well-formed command is read back from its own word. -/
def Obligations.DecodeOfEncodeIsTheCommand : Prop :=
  ∀ i : Instr, i.wf = true → decode (encode i) = .ok i

/-- The other direction (R86: "Every other bit is fixed"): a legal word is the encoding of the one command it decodes
to, so that no bit of a legal word is ignored. -/
def Obligations.LegalWordIsEncodingOfItsCommand : Prop :=
  ∀ (c : Word) (i : Instr), decode c = .ok i → i.wf = true ∧ encode i = c

/-- R86: a word decodes to the command of a row of the match table exactly when it matches the row's pattern under the
row's mask, NBITS being legal only for 0..128; the free fields are read from the bits R86 names; and no two rows match
the same word. -/
def Obligations.DecodeFollowsTheMatchTable : Prop :=
  (∀ (c : Word) (row : MatchRow), row ∈ matchTable →
    ((∃ i, decode c = .ok i ∧ i.mnemonic = row.mnemonic) ↔
      (c &&& row.mask = row.pattern ∧
        (row.mnemonic = "HASH_UPDATE" → (c.extractLsb' 0 8).toNat ≤ 128)))) ∧
  (∀ (c : Word) (v : BitVec 8), decode c = .ok (.setRounds v) ∨ decode c = .ok (.hashUpdate v) →
    v = c.extractLsb' 0 8) ∧
  (∀ (c : Word) (i : Instr), decode c = .ok i → c.extractLsb' 24 8 = 0x10#8 →
    ∃ b : BlockSize, b.bit = c.extractLsb' 4 1 ∧
      (i = .ecbEnc b ∨ i = .ecbDec b ∨ i = .cbcEnc b ∨ i = .cbcDec b ∨ i = .cfbEnc b ∨ i = .cfbDec b ∨
        i = .ofbEnc b ∨ i = .ofbDec b ∨ i = .ctrEnc b ∨ i = .ctrDec b)) ∧
  (∀ (c : Word) (r r' : MatchRow), r ∈ matchTable → r' ∈ matchTable →
    c &&& r.mask = r.pattern → c &&& r'.mask = r'.pattern → r = r')

/-- R89: exactly the words with one of the four defects are illegal. A host write of one to CMD is rejected with
CMD_ERR, and changes no state of the core except STATUS. -/
def Obligations.IllegalWordsAreRejectedWithCmdErr : Prop :=
  (∀ c : Word, (∃ why, decode c = .error why) ↔
    (¬ (c.extractLsb' 24 8 = 0x00#8 ∨ c.extractLsb' 24 8 = 0x01#8 ∨ c.extractLsb' 24 8 = 0x10#8 ∨
        c.extractLsb' 24 8 = 0x20#8 ∨ c.extractLsb' 24 8 = 0x21#8 ∨ c.extractLsb' 24 8 = 0x22#8) ∨
     ((c.extractLsb' 24 8 = 0x00#8 ∨ c.extractLsb' 24 8 = 0x20#8 ∨ c.extractLsb' 24 8 = 0x22#8) ∧
        c.extractLsb' 0 24 ≠ 0#24) ∨
     ((c.extractLsb' 24 8 = 0x01#8 ∨ c.extractLsb' 24 8 = 0x21#8) ∧ c.extractLsb' 8 16 ≠ 0#16) ∨
     (c.extractLsb' 24 8 = 0x10#8 ∧ c.extractLsb' 5 19 ≠ 0#19) ∨
     (c.extractLsb' 24 8 = 0x10#8 ∧ 5 ≤ (c.extractLsb' 0 3).toNat) ∨
     (c.extractLsb' 24 8 = 0x21#8 ∧ 128 < (c.extractLsb' 0 8).toNat))) ∧
  (∀ (s : State) (rest : List Input) (c : Word) (why : Illegal),
    s.pending = .access (.write 0x00 4 c) :: rest → decode c = .error why →
    step s = .next { s with
      pending := rest
      responses := .done :: s.responses
      status := { s.status with lastFail := true, cmdErr := true } })

/-- Words of 95_test_vectors.md, with what each decodes to: 0x10000011 is the CBC_ENC.128 row of section 2.4, and the other
seventeen are rows of section 2.7. -/
def Obligations.SampleWordsDecodeAsTheSpecSays : Prop :=
  decode 0x00000000 = .ok .nop ∧ decode 0x01000016 = .ok (.setRounds 22) ∧
  decode 0x10000000 = .ok (.ecbEnc .b64) ∧ decode 0x1000001C = .ok (.ctrDec .b128) ∧
  decode 0x10000004 = .ok (.ctrEnc .b64) ∧ decode 0x10000011 = .ok (.cbcEnc .b128) ∧
  decode 0x20000000 = .ok .hashInit ∧ decode 0x21000000 = .ok (.hashUpdate 0) ∧
  decode 0x21000080 = .ok (.hashUpdate 128) ∧ decode 0x22000000 = .ok .hashFinal ∧
  decode 0x00000001 = .error .mustBeZero ∧ decode 0x01000100 = .error .mustBeZero ∧
  decode 0x10000005 = .error .mode ∧ decode 0x10000017 = .error .mode ∧
  decode 0x10000020 = .error .mustBeZero ∧ decode 0x21000081 = .error .nbits ∧
  decode 0x23000000 = .error .opcode ∧ decode 0xFFFFFFFF = .error .opcode

/-! ## The step and the port -/

/-- A step runs the decoded command (R88): when the host's next access writes a legal word to CMD, the step is `exec` of
the command it decodes to, on the state without that access, followed by the write's answer to the host (R262). -/
def Obligations.StepRunsTheDecodedCommand : Prop :=
  ∀ (s : State) (rest : List Input) (c : Word) (i : Instr),
    s.pending = .access (.write 0x00 4 c) :: rest → decode c = .ok i →
    ∃ t, exec i { s with pending := rest } = .next t ∧
      step s = .next { t with responses := .done :: t.responses }

/-- No input of the world stops the machine: every step, from every state, answers a next state. It is how the model
takes R241 and R242 (no error of the core stops it; log entries 5 and 7). -/
def Obligations.EveryStepAnswersNext : Prop := ∀ s : State, ∃ t, step s = .next t

/-- With no input the core does nothing (the model's choice, log entry 7, after R248 and R255). -/
def Obligations.IdleStepChangesNothing : Prop := ∀ s : State, s.pending = [] → step s = .next s

/-- R61: what a host read returns, for every register but CMD; a read changes no state of the core. STATUS is read in
the field layout of R22. -/
def Obligations.ReadReturnsTheRegister : Prop :=
  ∀ (s : State) (rest : List Input),
    let answer : Nat → Word → Prop := fun off v =>
      s.pending = .access (.read off 4) :: rest →
        step s = .next { s with pending := rest, responses := .data v :: s.responses }
    (∀ v : Word, (v.getLsbD 0 = s.status.lastFail ∧ v.getLsbD 1 = s.status.cmdErr ∧ v.getLsbD 2 = s.status.cfgErr ∧
        v.getLsbD 3 = s.status.hashErr ∧
        v.extractLsb' 4 2 = (match s.status.hstate with
          | .idle => 0#2
          | .ready => 1#2
          | .accum => 2#2
          | .final => 3#2) ∧
        v.extractLsb' 6 26 = 0#26) → answer 0x04 v) ∧
    answer 0x08 (s.rounds.setWidth 32) ∧
    (∀ i : Fin 4, answer (0x10 + 4 * i.val) (s.key.get i)) ∧
    (∀ i : Fin 4, answer (0x20 + 4 * i.val) (s.iv.get i)) ∧
    (∀ i : Fin 4, answer (0x30 + 4 * i.val) (s.din.get i)) ∧
    (∀ i : Fin 4, answer (0x40 + 4 * i.val) (s.dout.get i)) ∧
    answer 0x50 s.msglenLo ∧ answer 0x54 s.msglenHi ∧
    (∀ j : Fin 8, answer (0x60 + 4 * j.val) (s.h.get j))

/-- The data-register clause of R62: a host write to KEY[i], IV[i], DIN[i], MSGLEN_LO or MSGLEN_HI stores the value, in
every hash state and every configuration, and has no other effect. -/
def Obligations.DataRegisterWriteStoresTheValue : Prop :=
  ∀ (s : State) (rest : List Input) (v : Word),
    (∀ i : Fin 4, s.pending = .access (.write (0x10 + 4 * i.val) 4 v) :: rest →
      step s = .next { s with pending := rest, responses := .done :: s.responses, key := s.key.set i v }) ∧
    (∀ i : Fin 4, s.pending = .access (.write (0x20 + 4 * i.val) 4 v) :: rest →
      step s = .next { s with pending := rest, responses := .done :: s.responses, iv := s.iv.set i v }) ∧
    (∀ i : Fin 4, s.pending = .access (.write (0x30 + 4 * i.val) 4 v) :: rest →
      step s = .next { s with pending := rest, responses := .done :: s.responses, din := s.din.set i v }) ∧
    (s.pending = .access (.write 0x50 4 v) :: rest →
      step s = .next { s with pending := rest, responses := .done :: s.responses, msglenLo := v }) ∧
    (s.pending = .access (.write 0x54 4 v) :: rest →
      step s = .next { s with pending := rest, responses := .done :: s.responses, msglenHi := v })

/-- R28: a host write of v to STATUS clears the flags that v selects, ignores the other bits of v, and does nothing
else; it never sets a flag. -/
def Obligations.StatusWriteClearsTheSelectedFlags : Prop :=
  ∀ (s : State) (rest : List Input) (v : Word),
    s.pending = .access (.write 0x04 4 v) :: rest →
    step s = .next { s with
      pending := rest
      responses := .done :: s.responses
      status := { s.status with
        cmdErr := if v.getLsbD 1 then false else s.status.cmdErr
        cfgErr := if v.getLsbD 2 then false else s.status.cfgErr
        hashErr := if v.getLsbD 3 then false else s.status.hashErr } }

/-- R63 and R241: an access is a bus error exactly when one of the six conditions holds, and then it changes no state of
the core; the host gets an error and no data. -/
def Obligations.BusErrorExactlyUnderTheSixConditions : Prop :=
  ∀ (s t : State) (rest : List Input) (a : Access),
    s.pending = .access a :: rest → step s = .next t →
    let off := a.offset
    let bad : Prop :=
      a.width ≠ 4 ∨ off % 4 ≠ 0 ∨ off < 0x00 ∨ 0x7F < off ∨ off = 0x0C ∨ off = 0x58 ∨ off = 0x5C ∨
      (a.isRead = true ∧ off = 0x00) ∨
      (a.isRead = false ∧ (off = 0x08 ∨ (0x40 ≤ off ∧ off < 0x50) ∨ (0x60 ≤ off ∧ off < 0x80)))
    (bad → t = { s with pending := rest, responses := .error (.busError off) :: s.responses }) ∧
    (¬ bad → t.responses.length = s.responses.length + 1 ∧ ∀ f, t.responses.head? ≠ some (.error f))

/-- A register reads back what a host write put there, and every other register reads as before (20_memory.md section
1): the register window keeps the basic laws of a memory. A write of STATUS is excepted (R28). -/
def Obligations.WriteThenReadWindow : Prop :=
  ∀ (s : State) (r r' : Reg) (v : Word), r.writable = true → r ≠ .cmd → r ≠ .status → r' ≠ .cmd →
    readReg (writeReg s r v) r' = if r' = r then some v else readReg s r'

/-- The register map of R20: each register stands at its own offset, a multiple of 4 in 0x00 to 0x7C that is not reserved
(R36), every such offset has a register, and the bases of the groups are those of the table. -/
def Obligations.RegisterMapIsOneToOne : Prop :=
  (∀ (off : Int) (r : Reg), regAt off = some r ↔ off = (r.offset : Int)) ∧
  (∀ off : Int, (∃ r, regAt off = some r) ↔
    (0 ≤ off ∧ off ≤ 0x7C ∧ off % 4 = 0 ∧ off ≠ 0x0C ∧ off ≠ 0x58 ∧ off ≠ 0x5C)) ∧
  Reg.cmd.offset = 0x00 ∧ Reg.status.offset = 0x04 ∧ Reg.rounds.offset = 0x08 ∧ Reg.msglenLo.offset = 0x50 ∧
  Reg.msglenHi.offset = 0x54 ∧ (∀ j : Fin 8, (Reg.h j).offset = 0x60 + 4 * j.val) ∧
  (∀ i : Fin 4, (Reg.key i).offset = 0x10 + 4 * i.val ∧ (Reg.iv i).offset = 0x20 + 4 * i.val ∧
    (Reg.din i).offset = 0x30 + 4 * i.val ∧ (Reg.dout i).offset = 0x40 + 4 * i.val)

/-- R60, R72: the window stands at BASE, a multiple of 0x80, and an access of a host address outside BASE to BASE + 0x7F
is a bus error. -/
def Obligations.AddressOutsideTheWindowIsBusError : Prop :=
  Config.base % 0x80 = 0 ∧
  ∀ (addr width : Nat) (v : Word), (addr < Config.base ∨ Config.base + 0x7F < addr) →
    checkAccess (.read (windowOffset addr) width) = .error (.busError (windowOffset addr)) ∧
    checkAccess (.write (windowOffset addr) width v) = .error (.busError (windowOffset addr))

/-- R92: the accesses of each pseudo-instruction are those of its expansion, in the order shown; the host issues the accesses
of a line in that order, so that after j steps those from the j-th on are still to come; and what the host gets by issuing
them all. That a program stands in `pending` and that a line is a list of accesses is how the model holds host programs (log
entries 6 and 19). -/
def Obligations.PseudoInstructionsRunTheirExpansions : Prop :=
  (∀ (k : Words4) (v0 v1 : Word) (n : BitVec 64),
    (AsmLine.ldkey k).accesses = [.write 0x10 4 k.w0, .write 0x14 4 k.w1, .write 0x18 4 k.w2, .write 0x1C 4 k.w3] ∧
    (AsmLine.ldiv k).accesses = [.write 0x20 4 k.w0, .write 0x24 4 k.w1, .write 0x28 4 k.w2, .write 0x2C 4 k.w3] ∧
    (AsmLine.ldin k).accesses = [.write 0x30 4 k.w0, .write 0x34 4 k.w1, .write 0x38 4 k.w2, .write 0x3C 4 k.w3] ∧
    (AsmLine.ldiv2 v0 v1).accesses = [.write 0x20 4 v0, .write 0x24 4 v1] ∧
    (AsmLine.ldin2 v0 v1).accesses = [.write 0x30 4 v0, .write 0x34 4 v1] ∧
    (AsmLine.setlen n).accesses = [.write 0x50 4 (n.extractLsb' 0 32), .write 0x54 4 (n.extractLsb' 32 32)] ∧
    AsmLine.clrerr.accesses = [.write 0x04 4 0x0000000E]) ∧
  (∀ (s : State) (line : AsmLine) (j : Nat), s.pending = [] → j ≤ line.accesses.length →
    ∃ t, Host.Core.run Sys2Proof.core j (s.loadProgram [line]) = .next t ∧
      t.pending = (line.accesses.drop j).map .access) ∧
  ∀ (s : State) (k : Words4) (v0 v1 : Word) (n : BitVec 64), s.pending = [] →
    Host.Core.run Sys2Proof.core 4 (s.loadProgram [.ldkey k]) =
      .next { s with key := k, responses := .done :: .done :: .done :: .done :: s.responses } ∧
    Host.Core.run Sys2Proof.core 4 (s.loadProgram [.ldiv k]) =
      .next { s with iv := k, responses := .done :: .done :: .done :: .done :: s.responses } ∧
    Host.Core.run Sys2Proof.core 4 (s.loadProgram [.ldin k]) =
      .next { s with din := k, responses := .done :: .done :: .done :: .done :: s.responses } ∧
    Host.Core.run Sys2Proof.core 2 (s.loadProgram [.ldiv2 v0 v1]) =
      .next { s with iv := { s.iv with w0 := v0, w1 := v1 }, responses := .done :: .done :: s.responses } ∧
    Host.Core.run Sys2Proof.core 2 (s.loadProgram [.ldin2 v0 v1]) =
      .next { s with din := { s.din with w0 := v0, w1 := v1 }, responses := .done :: .done :: s.responses } ∧
    Host.Core.run Sys2Proof.core 2 (s.loadProgram [.setlen n]) =
      .next { s with
        msglenLo := n.extractLsb' 0 32
        msglenHi := n.extractLsb' 32 32
        responses := .done :: .done :: s.responses } ∧
    Host.Core.run Sys2Proof.core 1 (s.loadProgram [.clrerr]) =
      .next { s with
        status := { s.status with cmdErr := false, cfgErr := false, hashErr := false }
        responses := .done :: s.responses }

/-- R65 and R68: the byte views of the key and of the digest are big-endian: a word is be32 of its four bytes. -/
def Obligations.KeyAndDigestBytesAreBigEndian : Prop :=
  ∀ (s : State),
    (∀ i : Fin 4, be32 (byteOfBlock s.key i 0) (byteOfBlock s.key i 1) (byteOfBlock s.key i 2) (byteOfBlock s.key i 3) =
      s.key.get i) ∧
    (∀ i j : Fin 4, byteOfBlock s.key i j = (s.key.get i).extractLsb' (8 * (3 - j.val)) 8) ∧
    (∀ (j : Fin 8) (m : Fin 4), digestByte s j m = (s.h.get j).extractLsb' (8 * (3 - m.val)) 8) ∧
    (∀ j : Fin 8, be32 (digestByte s j 0) (digestByte s j 1) (digestByte s j 2) (digestByte s j 3) = s.h.get j)

/-- R67: bit p of a message chunk is bit 127 - p of DIN[0] ++ DIN[1] ++ DIN[2] ++ DIN[3], so bit 31 - p mod 32 of word
p / 32, bit 0 being DIN[0][31]; and byte 4i + j is byte lane 3 - j of DIN[i], its own bits MSB-first. -/
def Obligations.MessageBitsAreMsbFirst : Prop :=
  ∀ s : State,
    (∀ p : Fin 128, (bitsOf s.din.cat)[p.val]? =
      some ((s.din.w0 ++ s.din.w1 ++ s.din.w2 ++ s.din.w3 : BitVec 128).getLsbD (127 - p.val))) ∧
    (∀ (i : Fin 4) (q : Fin 32), (bitsOf s.din.cat)[32 * i.val + q.val]? = some ((s.din.get i).getLsbD (31 - q.val))) ∧
    (∀ (i j : Fin 4) (q : Fin 8), (bitsOf s.din.cat)[8 * (4 * i.val + j.val) + q.val]? =
      some (((s.din.get i).extractLsb' (8 * (3 - j.val)) 8).getLsbD (7 - q.val)))

/-! ## Reset -/

/-- R42: the value of every piece of state after reset. -/
def Obligations.ResetValuesAreThoseOfTheTable : Prop :=
  State.reset.status.lastFail = false ∧ State.reset.status.cmdErr = false ∧ State.reset.status.cfgErr = false ∧
  State.reset.status.hashErr = false ∧ State.reset.status.hstate = .idle ∧ State.reset.status.word = 0 ∧
  State.reset.rounds = Config.roundsReset ∧ 9 ≤ Config.roundsReset.toNat ∧ Config.roundsReset.toNat ≤ 22 ∧
  (∀ i : Fin 4, State.reset.key.get i = 0 ∧ State.reset.iv.get i = 0 ∧ State.reset.din.get i = 0 ∧
    State.reset.dout.get i = 0) ∧
  State.reset.msglenLo = 0 ∧ State.reset.msglenHi = 0 ∧ (∀ j : Fin 8, State.reset.h.get j = 0) ∧
  State.reset.buf = 0 ∧ State.reset.bufbits = 0

/-- R260: the platform's reset puts the whole core into its reset state, all at once; a reset during the CMD write of
any word does the same, the command has no effect, and the stalled access ends at the platform's choice: with or without
an error (the answer is the model's free value, log entry 4). That the inputs still pending, the answers given and the count
of free values outlive a reset is the model's choice (log entry 18). -/
def Obligations.ResetInputRestoresTheResetState : Prop :=
  ∀ (s : State) (rest : List Input) (c : Word),
    (s.pending = .reset :: rest →
      step s = .next { State.reset with pending := rest, responses := s.responses, freeUses := s.freeUses }) ∧
    (s.pending = .resetDuringCommand c :: rest →
      ∃ answer : Response, (answer = .done ∨ ∃ f, answer = .error f) ∧
        step s = .next { State.reset with
          pending := rest
          responses := answer :: s.responses
          freeUses := s.freeUses + 1 })

/-! ## Round primitives -/

/-- R100, by the rule's second definition of the table: SB(b) is the affine map of the inverse of b in GF(2^8) modulo
0x11B, XORed with 0x63, the inverse of 0 being 0; and the four entries the rule checks. -/
def Obligations.SboxIsAffineMapOfFieldInverse : Prop :=
  (∀ b : Byte, ∃ y : Byte,
    (b ≠ 0 → (List.range 8).foldl (fun acc k => mul2 acc ^^^ (if y.getLsbD (7 - k) then b else 0)) 0 = 1) ∧
    (b = 0 → y = 0) ∧
    sb b = y ^^^ y.rotateLeft 1 ^^^ y.rotateLeft 2 ^^^ y.rotateLeft 3 ^^^ y.rotateLeft 4 ^^^ 0x63) ∧
  sb 0x00 = 0x63 ∧ sb 0x01 = 0x7c ∧ sb 0x53 = 0xed ∧ sb 0xff = 0x16

/-- R101: SubWord and Sub64 act on each byte in place; the corner cases and the example of the rule. -/
def Obligations.SubstitutionActsOnEachByte : Prop :=
  (∀ (w : Word) (j : Fin 4), (subWord w).extractLsb' (8 * j.val) 8 = sb (w.extractLsb' (8 * j.val) 8)) ∧
  (∀ (x : BitVec 64) (j : Fin 8), (sub64 x).extractLsb' (8 * j.val) 8 = sb (x.extractLsb' (8 * j.val) 8)) ∧
  (∀ x : BitVec 64, sub64 x = subWord (x.extractLsb' 32 32) ++ subWord (x.extractLsb' 0 32)) ∧
  subWord 0x00000000 = 0x63636363 ∧ subWord 0xFFFFFFFF = 0x16161616 ∧ (∀ b : Byte, sb b ≠ b) ∧
  subWord 0x01234567 = 0x7c266e85 ∧ sub64 0x0123456789abcdef = 0x7c266e85a762bddf

/-- R102, with the byte placement, the corner cases and the examples of R103: multiplication by 2 and 3, and the four
output bytes of MixColumn with column byte a_j in byte lane j. -/
def Obligations.MixColumnIsTheMatrixOnByteLanes : Prop :=
  (∀ b : Byte, mul2 b = ((b <<< 1) &&& 0xFF) ^^^ (if b.getLsbD 7 = true then 0x1B else 0x00)) ∧
  (∀ b : Byte, mul3 b = mul2 b ^^^ b) ∧
  (∀ w : Word,
    let a : Nat → Byte := fun j => w.extractLsb' (8 * j) 8
    let o : Nat → Byte := fun j => (mixColumn w).extractLsb' (8 * j) 8
    o 0 = mul2 (a 0) ^^^ mul3 (a 1) ^^^ a 2 ^^^ a 3 ∧
    o 1 = a 0 ^^^ mul2 (a 1) ^^^ mul3 (a 2) ^^^ a 3 ∧
    o 2 = a 0 ^^^ a 1 ^^^ mul2 (a 2) ^^^ mul3 (a 3) ∧
    o 3 = mul3 (a 0) ^^^ a 1 ^^^ a 2 ^^^ mul2 (a 3)) ∧
  mixColumn 0x455313db = 0xbca14d8e ∧ mixColumn 0x5c220af2 = 0x9d58dc9f ∧ mixColumn 0x4c31262d = 0xf8bd7e4d ∧
  mixColumn 0xd5d4d4d4 = 0xd6d7d5d5 ∧ (∀ b : Byte, mixColumn (b ++ b ++ b ++ b) = b ++ b ++ b ++ b) ∧
  mixColumn 0x01010101 = 0x01010101 ∧ mixColumn 0x00000001 = 0x03010102 ∧ mixColumn 0x00000080 = 0x9b80801b

/-- The spec's own inference in 40_round_primitives.md section 2: MixColumn is linear over XOR and takes
0 to 0. -/
def Obligations.MixColumnIsLinear : Prop :=
  (∀ x y : Word, mixColumn (x ^^^ y) = mixColumn x ^^^ mixColumn y) ∧ mixColumn 0 = 0

/-- R104: output bit k comes from the high cursor when mask bit k is 1 and from the low cursor when it is 0. The cursors
are where the mask bits below k have moved them: each 1 lowered the high cursor from N-1, each 0 raised the low cursor
from 0. -/
def Obligations.PermuteRoutesEachBitByTheCursors : Prop :=
  ∀ (n : Nat) (x m : BitVec n) (k : Nat), k < n →
    let ones := (List.range k).countP (fun j => m.getLsbD j)
    let zeros := (List.range k).countP (fun j => !m.getLsbD j)
    (permute x m).getLsbD k = if m.getLsbD k then x.getLsbD (n - 1 - ones) else x.getLsbD zeros

/-- The spec's own inference R105, first point: for every mask, Permute_N is a bijection on N-bit values. -/
def Obligations.PermuteIsBijectiveForEveryMask : Prop :=
  ∀ (n : Nat) (m : BitVec n), Function.Bijective (fun x : BitVec n => permute x m)

/-- The spec's own inference R105, third to fifth point: a zero mask is the identity, an all-ones mask reverses the bits,
and both the zero and the all-ones word are left as they are by every mask. -/
def Obligations.PermuteExtremeMasksAndWords : Prop :=
  ∀ (n : Nat) (x m : BitVec n),
    permute x 0 = x ∧ (∀ k, k < n → (permute x (BitVec.allOnes n)).getLsbD k = x.getLsbD (n - 1 - k)) ∧
    permute 0 m = 0 ∧ permute (BitVec.allOnes n) m = BitVec.allOnes n

/-! ## Key schedule and Feistel engine -/

/-- R120, R121, R122 and R123: the pool has 44 words; the first four are the key, and each later one follows the
recurrence, with RotWord turning (b0, b1, b2, b3) into (b1, b2, b3, b0) and the round constants of the table. -/
def Obligations.KeyPoolFollowsTheRecurrence : Prop :=
  (∀ key : Words4,
    (keyExpand key).length = 44 ∧
    (∀ i : Fin 4, (keyExpand key).getD i.val 0 = key.get i) ∧
    (∀ i, 4 ≤ i → i ≤ 43 →
      (keyExpand key).getD i 0 = (keyExpand key).getD (i - 4) 0 ^^^
        (if i % 4 = 0 then
          subWord (rotWord ((keyExpand key).getD (i - 1) 0)) ^^^ ((rcon (i / 4)).setWidth 32 <<< 24)
        else (keyExpand key).getD (i - 1) 0))) ∧
  (∀ b0 b1 b2 b3 : Byte, rotWord (b0 ++ b1 ++ b2 ++ b3) = b1 ++ b2 ++ b3 ++ b0) ∧
  rotWord 0x09cf4f3c = 0xcf4f3c09 ∧
  [1, 2, 3, 4, 5, 6, 7, 8, 9, 10].map rcon = [0x01, 0x02, 0x04, 0x08, 0x10, 0x20, 0x40, 0x80, 0x1b, 0x36] ∧
  (∀ j, 1 ≤ j → rcon (j + 1) = mul2 (rcon j))

/-- R130 to R135: the round functions, and encryption and decryption as their rounds in order and in reverse order, with
the examples of the rules. -/
def Obligations.FeistelRoundsInOrderAndInReverse : Prop :=
  (∀ x k1 k2 : Word, f32 x k1 k2 = permute (subWord (x ^^^ k1)) k2) ∧ f32 0 0 0 = 0x63636363 ∧
  (∀ x k : BitVec 64, f64 x k = permute (sub64 (x ^^^ k)) k) ∧
  f64 0x8899aabbccddeeff 0x0001020304050607 = 0x6c2665a260cb680b ∧
  (∀ (w : List Word) (n : Nat) (l r : Word), n < 22 →
    enc64 w 0 (l, r) = (l, r) ∧ dec64 w 0 (l, r) = (l, r) ∧
    enc64 w (n + 1) (l, r) =
      ((enc64 w n (l, r)).2,
        (enc64 w n (l, r)).1 ^^^ f32 (enc64 w n (l, r)).2 (w.getD (2 * n) 0) (w.getD (2 * n + 1) 0)) ∧
    dec64 w (n + 1) (l, r) = dec64 w n (r ^^^ f32 l (w.getD (2 * n) 0) (w.getD (2 * n + 1) 0), l)) ∧
  (∀ (w : List Word) (n : Nat) (b : Words4), n < 22 →
    let cut : BitVec 64 × BitVec 64 → Words4 := fun p =>
      ⟨p.1.extractLsb' 32 32, p.1.extractLsb' 0 32, p.2.extractLsb' 32 32, p.2.extractLsb' 0 32⟩
    let l : Words4 → BitVec 64 := fun b => b.w0 ++ b.w1
    let r : Words4 → BitVec 64 := fun b => b.w2 ++ b.w3
    let k : BitVec 64 := w.getD (2 * n) 0 ++ w.getD (2 * n + 1) 0
    enc128 w 0 b = b ∧ dec128 w 0 b = b ∧
    enc128 w (n + 1) b = cut (r (enc128 w n b), l (enc128 w n b) ^^^ f64 (r (enc128 w n b)) k) ∧
    dec128 w (n + 1) b = dec128 w n (cut (r b ^^^ f64 (l b) k, l b))) ∧
  (let w := keyExpand ⟨0x00010203, 0x04050607, 0x08090a0b, 0x0c0d0e0f⟩
   enc64 w 9 (0x01234567, 0x89abcdef) = (0x3c029f2a, 0x360f8eaf) ∧
   dec64 w 9 (0x3c029f2a, 0x360f8eaf) = (0x01234567, 0x89abcdef) ∧
   enc128 w 9 ⟨0x00112233, 0x44556677, 0x8899aabb, 0xccddeeff⟩ = ⟨0xcaafdd80, 0xd21d9fd8, 0x82b00788, 0x1e1ed50d⟩ ∧
   dec128 w 9 ⟨0xcaafdd80, 0xd21d9fd8, 0x82b00788, 0x1e1ed50d⟩ = ⟨0x00112233, 0x44556677, 0x8899aabb, 0xccddeeff⟩)

/-- The spec's own inference R137: FD undoes FE and FE undoes FD, for every pool, every round count and every block of
the size (a 64-bit block is two words, the other two being 0). -/
def Obligations.FeistelRoundTrip : Prop :=
  ∀ (bsz : BlockSize) (w : List Word) (n : Nat) (b : Words4), blockOf bsz b = b →
    fd bsz w n (fe bsz w n b) = b ∧ fe bsz w n (fd bsz w n b) = b

/-! ## Cipher commands -/

/-- R152, with its encoding and its example. -/
def Obligations.EcbEncWritesFeistelOfTheInput : Prop :=
  (∀ (bsz : BlockSize) (s : State), exec (.ecbEnc bsz) s = .next { s with
    dout := blockOf bsz (fe bsz (keyExpand s.key) s.rounds.toNat (blockOf bsz s.din))
    status := { s.status with lastFail := false } }) ∧
  (∀ bsz, encode (.ecbEnc bsz) = 0x10000000 ||| (bsz.bit.setWidth 32 <<< 4)) ∧
  (∀ s : State, s.key = ⟨0x00010203, 0x04050607, 0x08090a0b, 0x0c0d0e0f⟩ → s.rounds = 12 →
    s.din = ⟨0x00112233, 0x44556677, 0x8899aabb, 0xccddeeff⟩ →
    (∃ t, exec (.ecbEnc .b64) s = .next t ∧ t.dout = ⟨0x9497af77, 0xbae0d21c, 0, 0⟩) ∧
    (∃ t, exec (.ecbEnc .b128) s = .next t ∧ t.dout = ⟨0x670c49e3, 0x8d784d5f, 0x944e74a2, 0xd9c7b446⟩))

/-- R153, with its encoding and its example; the corner case is FeistelRoundTrip and CipherRoundTripInEveryMode. -/
def Obligations.EcbDecWritesInverseFeistelOfTheInput : Prop :=
  (∀ (bsz : BlockSize) (s : State), exec (.ecbDec bsz) s = .next { s with
    dout := blockOf bsz (fd bsz (keyExpand s.key) s.rounds.toNat (blockOf bsz s.din))
    status := { s.status with lastFail := false } }) ∧
  (∀ bsz, encode (.ecbDec bsz) = 0x10000008 ||| (bsz.bit.setWidth 32 <<< 4)) ∧
  (∀ s : State, s.key = ⟨0x00010203, 0x04050607, 0x08090a0b, 0x0c0d0e0f⟩ → s.rounds = 12 →
    s.din = ⟨0x00112233, 0x44556677, 0x8899aabb, 0xccddeeff⟩ →
    (∃ t, exec (.ecbDec .b64) s = .next t ∧ t.dout = ⟨0xa7368b71, 0x0cb261b5, 0, 0⟩) ∧
    (∃ t, exec (.ecbDec .b128) s = .next t ∧ t.dout = ⟨0xd517db25, 0xd2cefd3e, 0x3acd6031, 0x36c5fa3b⟩))

/-- R154, with its encoding, its corner cases (with IV = 0 it is ECB_ENC; IV is not replaced) and its example. -/
def Obligations.CbcEncWritesFeistelOfInputXorIv : Prop :=
  (∀ (bsz : BlockSize) (s : State), exec (.cbcEnc bsz) s = .next { s with
    dout := blockOf bsz (fe bsz (keyExpand s.key) s.rounds.toNat ((blockOf bsz s.din).xor (blockOf bsz s.iv)))
    status := { s.status with lastFail := false } }) ∧
  (∀ bsz, encode (.cbcEnc bsz) = 0x10000001 ||| (bsz.bit.setWidth 32 <<< 4)) ∧
  (∀ (bsz : BlockSize) (s : State), blockOf bsz s.iv = ⟨0, 0, 0, 0⟩ → exec (.cbcEnc bsz) s = exec (.ecbEnc bsz) s) ∧
  (∀ s : State, s.key = ⟨0x00010203, 0x04050607, 0x08090a0b, 0x0c0d0e0f⟩ → s.rounds = 12 →
    s.din = ⟨0x00112233, 0x44556677, 0x8899aabb, 0xccddeeff⟩ →
    s.iv = ⟨0xa0a1a2a3, 0xa4a5a6a7, 0xa8a9aaab, 0xacadaeaf⟩ →
    (∃ t, exec (.cbcEnc .b64) s = .next t ∧ t.dout = ⟨0x7c5c360a, 0x8887d7c7, 0, 0⟩) ∧
    (∃ t, exec (.cbcEnc .b128) s = .next t ∧ t.dout = ⟨0xbdd5a59a, 0xaf04c865, 0x5deb19ef, 0x1bb20bde⟩))

/-- R155, with its encoding and its example; the corner case is CipherRoundTripInEveryMode. -/
def Obligations.CbcDecWritesInverseFeistelXorIv : Prop :=
  (∀ (bsz : BlockSize) (s : State), exec (.cbcDec bsz) s = .next { s with
    dout := blockOf bsz ((fd bsz (keyExpand s.key) s.rounds.toNat (blockOf bsz s.din)).xor (blockOf bsz s.iv))
    status := { s.status with lastFail := false } }) ∧
  (∀ bsz, encode (.cbcDec bsz) = 0x10000009 ||| (bsz.bit.setWidth 32 <<< 4)) ∧
  (∀ s : State, s.key = ⟨0x00010203, 0x04050607, 0x08090a0b, 0x0c0d0e0f⟩ → s.rounds = 12 →
    s.din = ⟨0x00112233, 0x44556677, 0x8899aabb, 0xccddeeff⟩ →
    s.iv = ⟨0xa0a1a2a3, 0xa4a5a6a7, 0xa8a9aaab, 0xacadaeaf⟩ →
    (∃ t, exec (.cbcDec .b64) s = .next t ∧ t.dout = ⟨0x079729d2, 0xa817c712, 0, 0⟩) ∧
    (∃ t, exec (.cbcDec .b128) s = .next t ∧ t.dout = ⟨0x75b67986, 0x766b5b99, 0x9264ca9a, 0x9a685494⟩))

/-- R156 to R161: the six keystream commands write FE of the IV XORed with the input, decryption by the encrypt path; with
their encodings, the keystream corner case of R156 and the example of R156, which the other five rules take over. -/
def Obligations.KeystreamCommandsWriteFeistelOfIvXorInput : Prop :=
  (∀ (bsz : BlockSize) (s : State) (i : Instr),
    (i = .cfbEnc bsz ∨ i = .cfbDec bsz ∨ i = .ofbEnc bsz ∨ i = .ofbDec bsz ∨ i = .ctrEnc bsz ∨ i = .ctrDec bsz) →
    exec i s = .next { s with
      dout := blockOf bsz ((fe bsz (keyExpand s.key) s.rounds.toNat (blockOf bsz s.iv)).xor (blockOf bsz s.din))
      status := { s.status with lastFail := false } }) ∧
  (∀ bsz, encode (.cfbEnc bsz) = 0x10000002 ||| (bsz.bit.setWidth 32 <<< 4) ∧
    encode (.cfbDec bsz) = 0x1000000A ||| (bsz.bit.setWidth 32 <<< 4) ∧
    encode (.ofbEnc bsz) = 0x10000003 ||| (bsz.bit.setWidth 32 <<< 4) ∧
    encode (.ofbDec bsz) = 0x1000000B ||| (bsz.bit.setWidth 32 <<< 4) ∧
    encode (.ctrEnc bsz) = 0x10000004 ||| (bsz.bit.setWidth 32 <<< 4) ∧
    encode (.ctrDec bsz) = 0x1000000C ||| (bsz.bit.setWidth 32 <<< 4)) ∧
  (∀ s : State, s.key = ⟨0x00010203, 0x04050607, 0x08090a0b, 0x0c0d0e0f⟩ → s.rounds = 12 →
    s.iv = ⟨0xa0a1a2a3, 0xa4a5a6a7, 0xa8a9aaab, 0xacadaeaf⟩ →
    (s.din = ⟨0x00112233, 0x44556677, 0x8899aabb, 0xccddeeff⟩ →
      (∃ t, exec (.cfbEnc .b64) s = .next t ∧ t.dout = ⟨0x64cd4692, 0x5cbc1e12, 0, 0⟩) ∧
      (∃ t, exec (.cfbEnc .b128) s = .next t ∧ t.dout = ⟨0xa5cfa451, 0xe9ec3250, 0x93e37c4a, 0xf05b42e2⟩)) ∧
    (s.din = ⟨0, 0, 0, 0⟩ →
      ∃ t, exec (.cfbEnc .b128) s = .next t ∧ t.dout = ⟨0xa5de8662, 0xadb95427, 0x1b7ad6f1, 0x3c86ac1d⟩))

/-- R151: with a 64-bit block, DIN[2..3] and IV[2..3] are ignored, and DOUT[2..3] become 0, whatever the command. -/
def Obligations.SmallBlockIgnoresAndClearsTheHighWords : Prop :=
  ∀ (s : State) (a b c d : Word) (i : Instr),
    (i = .ecbEnc .b64 ∨ i = .ecbDec .b64 ∨ i = .cbcEnc .b64 ∨ i = .cbcDec .b64 ∨ i = .cfbEnc .b64 ∨
      i = .cfbDec .b64 ∨ i = .ofbEnc .b64 ∨ i = .ofbDec .b64 ∨ i = .ctrEnc .b64 ∨ i = .ctrDec .b64) →
    ∃ t u, exec i s = .next t ∧
      exec i { s with din := { s.din with w2 := a, w3 := b }, iv := { s.iv with w2 := c, w3 := d } } = .next u ∧
      u.dout = t.dout ∧ t.dout.w2 = 0 ∧ t.dout.w3 = 0

/-- The spec's own inference R163: in every mode and block size, the DEC command on the ENC result, under the same KEY,
IV and ROUNDS, gives the plaintext back in DOUT. -/
def Obligations.CipherRoundTripInEveryMode : Prop :=
  ∀ (bsz : BlockSize) (s : State) (enc dec : Instr),
    ((enc = .ecbEnc bsz ∧ dec = .ecbDec bsz) ∨ (enc = .cbcEnc bsz ∧ dec = .cbcDec bsz) ∨
      (enc = .cfbEnc bsz ∧ dec = .cfbDec bsz) ∨ (enc = .ofbEnc bsz ∧ dec = .ofbDec bsz) ∨
      (enc = .ctrEnc bsz ∧ dec = .ctrDec bsz)) →
    ∃ t u, exec enc s = .next t ∧ exec dec { t with din := t.dout } = .next u ∧
      u.dout = blockOf bsz s.din

/-! ## Control commands -/

/-- R230: NOP, its encoding and its example; and it is the one command that changes nothing but LAST_FAIL: every other command
changes something else in some state. -/
def Obligations.NopClearsLastFailOnly : Prop :=
  (∀ s : State, exec .nop s = .next { s with status := { s.status with lastFail := false } }) ∧
  encode .nop = 0x00000000 ∧
  (∀ c : Word, c.extractLsb' 24 8 = 0x00#8 → c.extractLsb' 0 24 ≠ 0#24 → ∃ why, decode c = .error why) ∧
  (∀ s : State, s.status.word = 0x00000003 → ∃ t, exec .nop s = .next t ∧ t.status.word = 0x00000002) ∧
  (∀ i : Instr, i.wf = true → i ≠ .nop →
    ∃ s t : State, exec i s = .next t ∧ t ≠ { s with status := { s.status with lastFail := t.status.lastFail } })

/-- R231: SET_ROUNDS stores a value in [9, 22], and rejects every other with CFG_ERR and no other effect. The corner cases
9, 22, 8, 23, 0 and 255 fall under the two clauses. -/
def Obligations.SetRoundsStoresLegalValuesOnly : Prop :=
  (∀ (v : BitVec 8) (s : State), 9 ≤ v.toNat → v.toNat ≤ 22 →
    ∃ r : BitVec 5, r.toNat = v.toNat ∧
      exec (.setRounds v) s = .next { s with rounds := r, status := { s.status with lastFail := false } }) ∧
  (∀ (v : BitVec 8) (s : State), (v.toNat < 9 ∨ 22 < v.toNat) →
    exec (.setRounds v) s = .next { s with status := { s.status with lastFail := true, cfgErr := true } }) ∧
  (∀ v : BitVec 8, encode (.setRounds v) = 0x01000000 ||| v.setWidth 32 ∧ decode (encode (.setRounds v)) = .ok (.setRounds v)) ∧
  (∀ s : State, s.rounds = 12 → s.status.word = 0 →
    ∃ t u, exec (.setRounds 30) s = .next t ∧ t.rounds = 12 ∧ t.status.word = 0x00000005 ∧
      exec (.setRounds 22) t = .next u ∧ u.rounds = 22 ∧ u.status.word = 0x00000004)

/-! ## Hash -/

/-- R180: each round emits the register's first word; the new word G(k[2] ^ HASH_RC[i]) ^ k[3] enters at the front. The
corner cases RK[0] = k0 and RK[i+1] = t_i, the key each compression calls it with, and the examples of the rule under
P_ZERO and P_TEST. -/
def Obligations.HashKeyScheduleShiftsInAtTheFront : Prop :=
  (∀ (p : HashParams) (key : Words4), (hks p key).length = 64 ∧
    ∃ k : Nat → Words4, k 0 = key ∧ ∀ i : Fin 64,
      (hks p key).getD i.val 0 = (k i.val).w0 ∧
      k (i.val + 1) = ⟨mixColumn (subWord ((k i.val).w2 ^^^ p.rc i)) ^^^ (k i.val).w3,
        (k i.val).w0, (k i.val).w1, (k i.val).w2⟩) ∧
  (∀ (p : HashParams) (key : Words4), (hks p key).getD 0 0 = key.w0) ∧
  (∀ (p : HashParams) (h : Words8) (m : Words4),
    compress p h m = (hks p ⟨h.w0, h.w1, h.w2, h.w3⟩).foldl compressRound (workingRegister h m)) ∧
  (hks ⟨fun _ => 0, fun _ => 0⟩ ⟨0, 0, 0, 0⟩).take 6 =
    [0x00000000, 0x63636363, 0x63636363, 0x63636363, 0xfbfbfbfb, 0x98989898] ∧
  (hks ⟨fun i => BitVec.ofNat 32 i.val, fun j => BitVec.ofNat 32 j.val⟩ ⟨0, 1, 2, 3⟩).take 6 =
    [0x00000000, 0x5f777748, 0x63636361, 0x5f77774a, 0x4bfd8943, 0x653a3ac4]

/-- R190 to R193: the combining function with its corner cases and example, and the compression as 64 rounds over the
register M ++ H[4..7] under the round keys of H[0..3], with no feed-forward; and the result of R194's trace under P_TEST. -/
def Obligations.CompressionIsSixtyFourRounds : Prop :=
  (∀ a b : Word, fh a b =
    ((g a).extractLsb' 16 16 ++ (g b).extractLsb' 0 16, (g b).extractLsb' 16 16 ++ (g a).extractLsb' 0 16)) ∧
  (∀ a : Word, fh a a = (g a, g a)) ∧ fh 0 0 = (0x63636363, 0x63636363) ∧ fh 1 2 = (0x427c774b, 0x5f777c5d) ∧
  (∀ (p : HashParams) (h : Words8) (m : Words4), ∃ x : Nat → Words8,
    x 0 = ⟨m.w0, m.w1, m.w2, m.w3, h.w4, h.w5, h.w6, h.w7⟩ ∧ compress p h m = x 64 ∧
    ∀ i, i < 64 →
      let y := fh ((x i).w4 ^^^ (hks p ⟨h.w0, h.w1, h.w2, h.w3⟩).getD i 0) (x i).w5
      x (i + 1) = ⟨(x i).w6 ^^^ y.1, (x i).w7 ^^^ y.2, (x i).w0, (x i).w1, (x i).w2, (x i).w3, (x i).w4, (x i).w5⟩) ∧
  compress ⟨fun i => BitVec.ofNat 32 i.val, fun j => BitVec.ofNat 32 j.val⟩ ⟨0, 1, 2, 3, 4, 5, 6, 7⟩ ⟨0, 0, 0, 0⟩ =
    ⟨0x3b5a4caf, 0x14d056f7, 0x7101670e, 0x80e87055, 0x80bb3a64, 0xd14f5c2d, 0x017e2f01, 0x4eea2cc1⟩

/-- R201: HASH_INIT, in every HSTATE, with its encoding, and its example under P_TEST. -/
def Obligations.HashInitStartsANewHash : Prop :=
  (∀ s : State, exec .hashInit s = .next { s with
    h := ⟨Config.hashIV 0, Config.hashIV 1, Config.hashIV 2, Config.hashIV 3, Config.hashIV 4, Config.hashIV 5,
      Config.hashIV 6, Config.hashIV 7⟩
    msglenLo := 0
    msglenHi := 0
    buf := 0
    bufbits := 0
    status := { s.status with hstate := .ready, lastFail := false } }) ∧
  encode .hashInit = 0x20000000 ∧
  (∀ s : State, (hashInitWith ⟨fun i => BitVec.ofNat 32 i.val, fun j => BitVec.ofNat 32 j.val⟩ s).h =
    ⟨0, 1, 2, 3, 4, 5, 6, 7⟩)

/-- R203: HASH_UPDATE NBITS, for every legal NBITS. In READY or ACCUM, T is the buffered bits followed by the first NBITS
bits of DIN, first bit DIN[0][31]; if T has 128 bits or more, its first 128 are compressed; the rest is kept in BUF,
zero-padded. In IDLE or FINAL the command is rejected with HASH_ERR. -/
def Obligations.HashUpdateAppendsTheChunk : Prop :=
  (∀ (nbits : BitVec 8) (s : State), nbits.toNat ≤ 128 →
    (s.status.hstate = .ready ∨ s.status.hstate = .accum) →
    ∃ (newbuf : BitVec 128) (newh : Words8),
      let bits : BitVec 128 → List Bool := fun v => List.ofFn fun p : Fin 128 => v.getLsbD (127 - p.val)
      let d : BitVec 128 := s.din.w0 ++ s.din.w1 ++ s.din.w2 ++ s.din.w3
      let str := (bits s.buf).take s.bufbits ++ (bits d).take nbits.toNat
      let left := if 128 ≤ str.length then str.drop 128 else str
      exec (.hashUpdate nbits) s = .next { s with
        h := newh
        buf := newbuf
        bufbits := left.length
        status := { s.status with hstate := .accum, lastFail := false } } ∧
      (∀ p : Fin 128, newbuf.getLsbD (127 - p.val) = left.getD p.val false) ∧
      (str.length < 128 → newh = s.h) ∧
      (128 ≤ str.length → ∃ m : Words4,
        (∀ p : Fin 128, (m.w0 ++ m.w1 ++ m.w2 ++ m.w3 : BitVec 128).getLsbD (127 - p.val) = str.getD p.val false) ∧
        newh = compress Config.hash s.h m)) ∧
  (∀ (nbits : BitVec 8) (s : State), nbits.toNat ≤ 128 →
    (s.status.hstate = .idle ∨ s.status.hstate = .final) →
    exec (.hashUpdate nbits) s = .next { s with status := { s.status with lastFail := true, hashErr := true } })

/-- R205, R206 and R207: HASH_FINAL in READY or ACCUM compresses the padding block P1, whose bit 127 - BUFBITS is the
single 1 after the data bits, and then the length block P2; in IDLE or FINAL it is rejected with HASH_ERR. With its
encoding, the corner case of an empty buffer, and its example under P_TEST. -/
def Obligations.HashFinalCompressesPaddingThenLength : Prop :=
  (∀ s : State, s.bufbits ≤ 127 → (s.status.hstate = .ready ∨ s.status.hstate = .accum) →
    ∃ p1 : Words4,
      (∀ p : Fin 128, (p1.w0 ++ p1.w1 ++ p1.w2 ++ p1.w3 : BitVec 128).getLsbD (127 - p.val) =
        if p.val < s.bufbits then s.buf.getLsbD (127 - p.val) else decide (p.val = s.bufbits)) ∧
      (s.bufbits = 0 → p1 = ⟨0x80000000, 0, 0, 0⟩) ∧
      exec .hashFinal s = .next { s with
        h := compress Config.hash (compress Config.hash s.h p1) ⟨0, 0, s.msglenHi, s.msglenLo⟩
        buf := 0
        bufbits := 0
        status := { s.status with hstate := .final, lastFail := false } }) ∧
  (∀ s : State, (s.status.hstate = .idle ∨ s.status.hstate = .final) →
    exec .hashFinal s = .next { s with status := { s.status with lastFail := true, hashErr := true } }) ∧
  encode .hashFinal = 0x22000000 ∧
  (∀ s : State, let p : HashParams := ⟨fun i => BitVec.ofNat 32 i.val, fun j => BitVec.ofNat 32 j.val⟩
    (hashFinalWith p (hashInitWith p s)).h =
      ⟨0x40c36e78, 0x71a3f1a8, 0x8d5bd1a8, 0xfe134c9a, 0x1c14e5cb, 0xbf80ffa6, 0xd7b8e562, 0x75d705e0⟩)

/-- R209: HASH_UPDATE and HASH_FINAL in IDLE or FINAL change nothing but LAST_FAIL and HASH_ERR, which become 1; so a
digest in H survives. -/
def Obligations.WrongStateHashCommandsAreRejected : Prop :=
  ∀ (s : State) (i : Instr), (s.status.hstate = .idle ∨ s.status.hstate = .final) →
    (i = .hashFinal ∨ ∃ nbits : BitVec 8, nbits.toNat ≤ 128 ∧ i = .hashUpdate nbits) →
    exec i s = .next { s with status := { s.status with lastFail := true, hashErr := true } }

/-- R246, first point: an illegal HASH_UPDATE word records CMD_ERR only, in every HSTATE; the rule's own example
0x210000FF. A term of `Instr` with NBITS above 128, which no word decodes to, is rejected the same way by `exec` (the
model's choice, log entry 8). -/
def Obligations.EncodingErrorComesBeforeHashState : Prop :=
  (∀ (s : State) (rest : List Input) (nbits : BitVec 8), 128 < nbits.toNat →
    s.pending = .access (.write 0x00 4 (0x21000000 ||| nbits.setWidth 32)) :: rest →
    step s = .next { s with
      pending := rest
      responses := .done :: s.responses
      status := { s.status with lastFail := true, cmdErr := true } }) ∧
  (∀ (s : State) (nbits : BitVec 8), 128 < nbits.toNat →
    exec (.hashUpdate nbits) s = .next { s with status := { s.status with lastFail := true, cmdErr := true } })

/-- R200: the whole transition table, for every command; in a blank cell the command is rejected with HASH_ERR and changes
nothing but STATUS; and no host access other than a CMD write changes HSTATE. -/
def Obligations.HashStateTransitions : Prop :=
  (∀ (s : State) (i : Instr), i.wf = true → ∃ t, exec i s = .next t ∧
    t.status.hstate = (match i, s.status.hstate with
      | .hashInit, _ => .ready
      | .hashUpdate _, .ready => .accum
      | .hashUpdate _, .accum => .accum
      | .hashFinal, .ready => .final
      | .hashFinal, .accum => .final
      | _, hs => hs)) ∧
  (∀ (s : State) (i : Instr), i.wf = true → (s.status.hstate = .idle ∨ s.status.hstate = .final) →
    (i = .hashFinal ∨ ∃ nbits, i = .hashUpdate nbits) →
    exec i s = .next { s with status := { s.status with lastFail := true, hashErr := true } }) ∧
  (∀ (s t : State) (rest : List Input) (a : Access), s.pending = .access a :: rest → (∀ c, a ≠ .write 0x00 4 c) →
    step s = .next t → t.status.hstate = s.status.hstate)

/-- The spec's own inference R211: from any state in READY or ACCUM that keeps R39, two ways of cutting the same message
bits into HASH_UPDATE chunks lead to the same chaining value, the same buffer and so, with one MSGLEN, the same digest.
A chunk is a value of DIN with the number of its bits that count. -/
def Obligations.StreamingDoesNotDependOnTheSplit : Prop :=
  ∀ (p : HashParams) (s : State) (xs ys : List (Words4 × Nat)),
    s.bufbitsLegal → s.bufPadded → (s.status.hstate = .ready ∨ s.status.hstate = .accum) →
    (∀ c ∈ xs, c.2 ≤ 128) → (∀ c ∈ ys, c.2 ≤ 128) →
    (xs.flatMap fun c => (bitsOf c.1.cat).take c.2) = (ys.flatMap fun c => (bitsOf c.1.cat).take c.2) →
    let feed : List (Words4 × Nat) → State := fun cs =>
      cs.foldl (fun st c => hashUpdateWith p c.2 { st with din := c.1 }) s
    (feed xs).h = (feed ys).h ∧ (feed xs).buf = (feed ys).buf ∧ (feed xs).bufbits = (feed ys).bufbits ∧
    (hashFinalWith p (feed xs)).h = (hashFinalWith p (feed ys)).h

/-- The spec's own inference R212: the digest of the empty message, by HASH_INIT then HASH_FINAL, and with a HASH_UPDATE 0
between them. -/
def Obligations.EmptyMessageDigest : Prop :=
  ∀ (p : HashParams) (s : State),
    (hashFinalWith p (hashInitWith p s)).h =
      compress p (compress p p.initial ⟨0x80000000, 0, 0, 0⟩) ⟨0, 0, 0, 0⟩ ∧
    (hashFinalWith p (hashUpdateWith p 0 (hashInitWith p s))).h =
      compress p (compress p p.initial ⟨0x80000000, 0, 0, 0⟩) ⟨0, 0, 0, 0⟩

/-- R210: a hash command neither reads nor writes KEY, IV, DOUT or ROUNDS, and does not write DIN: from two states that
differ only there and in LAST_FAIL it leads to states that differ in those registers only. And a hash command after a cipher
command leads to the state it leads to without it, but for the DOUT that the cipher command wrote. -/
def Obligations.HashCommandsIgnoreTheCipherRegisters : Prop :=
  (∀ (s : State) (key iv dout : Words4) (rounds : BitVec 5) (failed : Bool) (i : Instr),
    (i = .hashInit ∨ i = .hashFinal ∨ ∃ nbits, i = .hashUpdate nbits) →
    ∃ t, exec i s = .next t ∧ t.key = s.key ∧ t.iv = s.iv ∧ t.dout = s.dout ∧ t.rounds = s.rounds ∧ t.din = s.din ∧
      exec i { s with
          key := key
          iv := iv
          dout := dout
          rounds := rounds
          status := { s.status with lastFail := failed } } =
        .next { t with key := key, iv := iv, dout := dout, rounds := rounds }) ∧
  (∀ (s : State) (bsz : BlockSize) (c i : Instr),
    (c = .ecbEnc bsz ∨ c = .ecbDec bsz ∨ c = .cbcEnc bsz ∨ c = .cbcDec bsz ∨ c = .cfbEnc bsz ∨ c = .cfbDec bsz ∨
      c = .ofbEnc bsz ∨ c = .ofbDec bsz ∨ c = .ctrEnc bsz ∨ c = .ctrDec bsz) →
    (i = .hashInit ∨ i = .hashFinal ∨ ∃ nbits, i = .hashUpdate nbits) →
    ∃ t u, exec i s = .next t ∧ exec c s = .next u ∧ exec i u = .next { t with dout := u.dout })

/-! ## Rules of the whole machine -/

/-- R24: CMD_ERR is set by the CMD write of an illegal word, and cleared only by reset or by a STATUS write with bit 1
set; and it is set by nothing else (R41). -/
def Obligations.CmdErrIsSetAndClearedOnlyAsStated : Prop :=
  ∀ (s t : State) (inp : Input) (rest : List Input), s.pending = inp :: rest → step s = .next t →
    (∀ c why, inp = .access (.write 0x00 4 c) → decode c = .error why → t.status.cmdErr = true) ∧
    (s.status.cmdErr = true → t.status.cmdErr = false →
      inp.resets = true ∨ ∃ v : Word, inp = .access (.write 0x04 4 v) ∧ v.getLsbD 1 = true) ∧
    (s.status.cmdErr = false → t.status.cmdErr = true →
      ∃ c why, inp = .access (.write 0x00 4 c) ∧ decode c = .error why)

/-- R25: CFG_ERR is set by SET_ROUNDS with a value outside [9, 22], and cleared only by reset or by a STATUS write with
bit 2 set; and it is set by nothing else (R41). -/
def Obligations.CfgErrIsSetAndClearedOnlyAsStated : Prop :=
  ∀ (s t : State) (inp : Input) (rest : List Input), s.pending = inp :: rest → step s = .next t →
    (∀ (c : Word) (v : BitVec 8), inp = .access (.write 0x00 4 c) → decode c = .ok (.setRounds v) →
      (v.toNat < 9 ∨ 22 < v.toNat) → t.status.cfgErr = true) ∧
    (s.status.cfgErr = true → t.status.cfgErr = false →
      inp.resets = true ∨ ∃ v : Word, inp = .access (.write 0x04 4 v) ∧ v.getLsbD 2 = true) ∧
    (s.status.cfgErr = false → t.status.cfgErr = true →
      ∃ (c : Word) (v : BitVec 8), inp = .access (.write 0x00 4 c) ∧ decode c = .ok (.setRounds v) ∧
        (v.toNat < 9 ∨ 22 < v.toNat))

/-- R26: HASH_ERR is set by HASH_UPDATE or HASH_FINAL in IDLE or FINAL, and cleared only by reset or by a STATUS write with
bit 3 set; and it is set by nothing else (R41). -/
def Obligations.HashErrIsSetAndClearedOnlyAsStated : Prop :=
  ∀ (s t : State) (inp : Input) (rest : List Input), s.pending = inp :: rest → step s = .next t →
    (∀ (c : Word) (i : Instr), inp = .access (.write 0x00 4 c) → decode c = .ok i →
      (i = .hashFinal ∨ ∃ n, i = .hashUpdate n) → (s.status.hstate = .idle ∨ s.status.hstate = .final) →
      t.status.hashErr = true) ∧
    (s.status.hashErr = true → t.status.hashErr = false →
      inp.resets = true ∨ ∃ v : Word, inp = .access (.write 0x04 4 v) ∧ v.getLsbD 3 = true) ∧
    (s.status.hashErr = false → t.status.hashErr = true →
      ∃ (c : Word) (i : Instr), inp = .access (.write 0x00 4 c) ∧ decode c = .ok i ∧
        (i = .hashFinal ∨ ∃ n, i = .hashUpdate n) ∧ (s.status.hstate = .idle ∨ s.status.hstate = .final))

/-- R23: LAST_FAIL is written by every command and by nothing else but reset (R42): after a CMD write it is 1 exactly when
the command was rejected, that is when one of the three causes of R240 held, and every other access leaves it. -/
def Obligations.LastFailTellsOfTheLastCommand : Prop :=
  ∀ (s t : State) (inp : Input) (rest : List Input), s.pending = inp :: rest → step s = .next t →
    (∀ c : Word, inp = .access (.write 0x00 4 c) →
      (t.status.lastFail = true ↔
        ((∃ why, decode c = .error why) ∨
         (∃ v : BitVec 8, decode c = .ok (.setRounds v) ∧ (v.toNat < 9 ∨ 22 < v.toNat)) ∨
         ((decode c = .ok .hashFinal ∨ ∃ n, decode c = .ok (.hashUpdate n)) ∧
           (s.status.hstate = .idle ∨ s.status.hstate = .final))))) ∧
    ((∀ c : Word, inp ≠ .access (.write 0x00 4 c)) → inp.resets = false → t.status.lastFail = s.status.lastFail)

/-- R30, R31 and R32: only host writes change KEY, IV and DIN (and reset); no command writes them. -/
def Obligations.OperandRegistersChangeOnlyByHostWrites : Prop :=
  ∀ (s t : State) (inp : Input) (rest : List Input), s.pending = inp :: rest → step s = .next t → inp.resets = false →
    (∀ i : Fin 4, t.key.get i ≠ s.key.get i → inp = .access (.write (0x10 + 4 * i.val) 4 (t.key.get i))) ∧
    (∀ i : Fin 4, t.iv.get i ≠ s.iv.get i → inp = .access (.write (0x20 + 4 * i.val) 4 (t.iv.get i))) ∧
    (∀ i : Fin 4, t.din.get i ≠ s.din.get i → inp = .access (.write (0x30 + 4 * i.val) 4 (t.din.get i)))

/-- R29, R33, R34 and R35, who writes the results: only SET_ROUNDS changes ROUNDS; only a cipher command changes DOUT; only
a host write of its half or HASH_INIT changes MSGLEN; only HASH_INIT, HASH_UPDATE and HASH_FINAL change H, BUF and
BUFBITS (reset apart). -/
def Obligations.ResultRegistersChangeOnlyByTheirCommands : Prop :=
  ∀ (s t : State) (inp : Input) (rest : List Input), s.pending = inp :: rest → step s = .next t → inp.resets = false →
    let ran : (Instr → Prop) → Prop := fun P => ∃ c i, inp = .access (.write 0x00 4 c) ∧ decode c = .ok i ∧ P i
    (t.rounds ≠ s.rounds → ran fun i => ∃ v, i = .setRounds v ∧ v.toNat = t.rounds.toNat) ∧
    (t.dout ≠ s.dout → ran fun i => ∃ b, i = .ecbEnc b ∨ i = .ecbDec b ∨ i = .cbcEnc b ∨ i = .cbcDec b ∨
      i = .cfbEnc b ∨ i = .cfbDec b ∨ i = .ofbEnc b ∨ i = .ofbDec b ∨ i = .ctrEnc b ∨ i = .ctrDec b) ∧
    (t.msglenLo ≠ s.msglenLo → inp = .access (.write 0x50 4 t.msglenLo) ∨ (t.msglenLo = 0 ∧ ran fun i => i = .hashInit)) ∧
    (t.msglenHi ≠ s.msglenHi → inp = .access (.write 0x54 4 t.msglenHi) ∨ (t.msglenHi = 0 ∧ ran fun i => i = .hashInit)) ∧
    (t.h ≠ s.h ∨ t.buf ≠ s.buf ∨ t.bufbits ≠ s.bufbits →
      ran fun i => i = .hashInit ∨ i = .hashFinal ∨ ∃ n, i = .hashUpdate n)

/-- R242: a rejected command changes STATUS and nothing else, and a CMD write that is rejected completes on the bus with no
error. -/
def Obligations.RejectionChangesStatusOnly : Prop :=
  ∀ (s t : State) (rest : List Input) (c : Word), s.pending = .access (.write 0x00 4 c) :: rest →
    step s = .next t → t.status.lastFail = true →
    t = { s with pending := rest, responses := .done :: s.responses, status := t.status } ∧
    ∃ cause : Cause, t.status = (match cause with
      | .cmdErr => { s.status with lastFail := true, cmdErr := true }
      | .cfgErr => { s.status with lastFail := true, cfgErr := true }
      | .hashErr => { s.status with lastFail := true, hashErr := true })

/-! ## Invariants -/

/-- R29 and R39, of every step from every state that keeps them: ROUNDS stays in [9, 22], BUFBITS in [0, 127], and every
bit of BUF after the first BUFBITS stays 0. -/
def Obligations.EveryStepKeepsRoundsAndBufferLegal : Prop :=
  ∀ s t : State, s.Inv → step s = .next t → t.Inv

/-- The reset state keeps R29 and R39. -/
def Obligations.ResetStateIsLegal : Prop := State.reset.Inv

/-- Whenever the hash is not accumulating, the buffer is empty: from R42, R201, R203 and R205. It holds at reset, and every
step keeps it. -/
def Obligations.BufferStaysEmptyOutsideAccum : Prop :=
  State.reset.bufEmptyOutsideAccum ∧
  ∀ s t : State, s.bufEmptyOutsideAccum → step s = .next t → t.bufEmptyOutsideAccum
end

