-- ==== Sys2Proof/Laws/Bits.lean ====
section
/-! SUPPORT. Bit strings and 128-bit blocks: what each conversion reads as, bit by bit, and that they undo one another. -/

namespace Sys2Proof.Machine

@[simp] theorem bitsOf_length (v : BitVec 128) : (bitsOf v).length = 128 := by simp [bitsOf]

theorem bitsOf_getElem? (v : BitVec 128) (p : Nat) :
    (bitsOf v)[p]? = if p < 128 then some (v.getMsbD p) else none := by
  by_cases h : p < 128
  · simp [bitsOf, h]
  · simp [bitsOf, h]

theorem getMsbD_blockFrom (l : List Bool) (p q : Nat) :
    (blockFrom p l).getMsbD q = (decide (p ≤ q ∧ q < 128) && l.getD (q - p) false) := by
  induction l generalizing p with
  | nil => simp [blockFrom]
  | cons b rest ih =>
    have hbit : (if b then BitVec.twoPow 128 127 >>> p else 0#128).getMsbD q
        = (decide (p = q ∧ q < 128) && b) := by
      cases b
      · simp
      · by_cases hq : q < 128
        · simp only [BitVec.getMsbD_eq_getLsbD, BitVec.getLsbD_ushiftRight, BitVec.getLsbD_twoPow, if_true, hq]
          simp only [Bool.and_true, decide_true, Bool.true_and, and_true]
          by_cases hpq : p = q
          · subst hpq
            simp
            omega
          · simp [hpq]
            omega
        · simp [hq, BitVec.getMsbD_eq_getLsbD]
    rw [blockFrom, BitVec.getMsbD_or, ih]
    have : (if b = true then BitVec.twoPow 128 127 >>> p else 0) = (if b = true then BitVec.twoPow 128 127 >>> p else 0#128) := rfl
    rw [this, hbit]
    by_cases hpq : p = q
    · subst hpq
      simp
    · by_cases hlt : p < q
      · obtain ⟨d, rfl⟩ : ∃ d, q = p + 1 + d := ⟨q - (p + 1), by omega⟩
        have h1 : p + 1 + d - p = d + 1 := by omega
        have h2 : p + 1 + d - (p + 1) = d := by omega
        have h3 : p ≤ p + 1 + d := by omega
        have h4 : p + 1 ≤ p + 1 + d := by omega
        simp [h1, h2, hpq, h3]
      · have h3 : ¬ p ≤ q := by omega
        have h4 : ¬ p + 1 ≤ q := by omega
        simp [hpq, h3, h4]

theorem getMsbD_pad128 (l : List Bool) (q : Nat) :
    (pad128 l).getMsbD q = (decide (q < 128) && l.getD q false) := by
  simp [pad128, getMsbD_blockFrom]

/-- The string of a padded block is the string itself, followed by the padding. -/
theorem bitsOf_pad128_take (l : List Bool) (h : l.length ≤ 128) : (bitsOf (pad128 l)).take l.length = l := by
  apply List.ext_getElem?
  intro i
  rw [List.getElem?_take, bitsOf_getElem?]
  by_cases hi : i < l.length
  · have : i < 128 := by omega
    simp [hi, this, getMsbD_pad128]
  · simp [hi]

theorem pad128_eq_of_getMsbD (l : List Bool) (v : BitVec 128)
    (h : ∀ q, q < 128 → v.getMsbD q = l.getD q false) : pad128 l = v := by
  apply BitVec.eq_of_getMsbD_eq
  intro q hq
  rw [getMsbD_pad128, h q hq]
  simp [hq]

@[simp] theorem pad128_nil : pad128 [] = 0 := rfl

theorem pad128_bitsOf (v : BitVec 128) : pad128 (bitsOf v) = v := by
  apply pad128_eq_of_getMsbD
  intro q hq
  rw [List.getD_eq_getElem?_getD, bitsOf_getElem?]
  simp [hq]

/-- Two words joined read as the low word below bit 32 and as the high word from there on. -/
theorem getLsbD_append32 (a b : Word) (i : Nat) :
    (a ++ b : BitVec 64).getLsbD i = if i < 32 then b.getLsbD i else a.getLsbD (i - 32) :=
  BitVec.getLsbD_append (x := a) (y := b) (i := i)

/-- Four words joined, bit by bit: word 3 is the lowest. -/
theorem getLsbD_append4 (a b c d : Word) (i : Nat) :
    (a ++ b ++ c ++ d : BitVec 128).getLsbD i =
      if i < 32 then d.getLsbD i else if i < 64 then c.getLsbD (i - 32)
      else if i < 96 then b.getLsbD (i - 64) else a.getLsbD (i - 96) := by
  have h1 := BitVec.getLsbD_append (x := a ++ b ++ c) (y := d) (i := i)
  have h2 := BitVec.getLsbD_append (x := a ++ b) (y := c) (i := i - 32)
  have h3 := BitVec.getLsbD_append (x := a) (y := b) (i := i - 32 - 32)
  refine h1.trans ?_
  split
  · rfl
  · refine h2.trans ?_
    rw [h3]
    repeat' split
    all_goals first
      | rfl
      | omega

theorem getLsbD_cat (x : Words4) (i : Nat) :
    x.cat.getLsbD i =
      if i < 32 then x.w3.getLsbD i else if i < 64 then x.w2.getLsbD (i - 32)
      else if i < 96 then x.w1.getLsbD (i - 64) else x.w0.getLsbD (i - 96) :=
  getLsbD_append4 x.w0 x.w1 x.w2 x.w3 i

@[simp] theorem words_cat (x : Words4) : words x.cat = x := by
  cases x
  simp only [words, Words4.mk.injEq]
  refine ⟨?_, ?_, ?_, ?_⟩ <;>
  · apply BitVec.eq_of_getLsbD_eq
    intro i hi
    rw [BitVec.getLsbD_extractLsb', getLsbD_cat]
    simp only [hi, decide_true, Bool.true_and]
    repeat' split
    all_goals first
      | omega
      | (congr 1; omega)

@[simp] theorem cat_words (v : BitVec 128) : (words v).cat = v := by
  apply BitVec.eq_of_getLsbD_eq
  intro i hi
  rw [getLsbD_cat]
  simp only [words, BitVec.getLsbD_extractLsb']
  repeat' split
  · rw [show decide (i < 32) = true by simp; omega, Bool.true_and]
    congr 1
    omega
  · rw [show decide (i - 32 < 32) = true by simp; omega, Bool.true_and]
    congr 1
    omega
  · rw [show decide (i - 64 < 32) = true by simp; omega, Bool.true_and]
    congr 1
    omega
  · rw [show decide (i - 96 < 32) = true by simp; omega, Bool.true_and]
    congr 1
    omega

@[simp] theorem fromHalves_halves (b : Words4) : fromHalves (halves b) = b := by
  cases b
  simp only [fromHalves, halves, Words4.mk.injEq]
  refine ⟨?_, ?_, ?_, ?_⟩ <;>
  · apply BitVec.eq_of_getLsbD_eq
    intro i hi
    rw [BitVec.getLsbD_extractLsb', getLsbD_append32]
    simp only [hi, decide_true, Bool.true_and]
    split
    all_goals first
      | omega
      | (congr 1; omega)

/-- A 64-bit value is its two words joined. -/
theorem append_extract32 (v : BitVec 64) : (v.extractLsb' 32 32 ++ v.extractLsb' 0 32 : BitVec 64) = v := by
  apply BitVec.eq_of_getLsbD_eq
  intro i hi
  rw [getLsbD_append32]
  simp only [BitVec.getLsbD_extractLsb']
  split
  · rw [show decide (i < 32) = true by simp; omega, Bool.true_and]
    congr 1
    omega
  · rw [show decide (i - 32 < 32) = true by simp; omega, Bool.true_and]
    congr 1
    omega

/-- The two words of two words joined. -/
theorem extract_append32 (a b : Word) :
    (a ++ b : BitVec 64).extractLsb' 32 32 = a ∧ (a ++ b : BitVec 64).extractLsb' 0 32 = b := by
  constructor <;>
  · apply BitVec.eq_of_getLsbD_eq
    intro i hi
    rw [BitVec.getLsbD_extractLsb', getLsbD_append32]
    simp only [hi, decide_true, Bool.true_and]
    split
    all_goals first
      | omega
      | (congr 1; omega)

@[simp] theorem halves_fromHalves (p : BitVec 64 × BitVec 64) : halves (fromHalves p) = p := by
  simp [fromHalves, halves, append_extract32]

@[simp] theorem blockOf_blockOf (bsz : BlockSize) (x : Words4) : blockOf bsz (blockOf bsz x) = blockOf bsz x := by
  cases bsz <;> rfl

theorem xor_self_cancel (x y : Words4) : (x.xor y).xor y = x := by
  cases x; cases y
  simp [Words4.xor]

theorem blockOf_xor (bsz : BlockSize) (x y : Words4) :
    blockOf bsz (x.xor y) = (blockOf bsz x).xor (blockOf bsz y) := by
  cases bsz <;> simp [blockOf, Words4.xor]

@[simp] theorem blockOf_fe (bsz : BlockSize) (w : List Word) (n : Nat) (b : Words4) :
    blockOf bsz (fe bsz w n b) = fe bsz w n b := by
  cases bsz <;> rfl

@[simp] theorem blockOf_fd (bsz : BlockSize) (w : List Word) (n : Nat) (b : Words4) :
    blockOf bsz (fd bsz w n b) = fd bsz w n b := by
  cases bsz <;> rfl

@[simp] theorem get_set (x : Words4) (i j : Fin 4) (v : Word) :
    (x.set i v).get j = if j = i then v else x.get j := by
  fin_cases i <;> fin_cases j <;> rfl

end Sys2Proof.Machine
end

