-- ==== Sys2Proof/Laws/Encoding.lean ====
section
/-! SUPPORT. Command words as numbers: each field of a word, and each format's word, so that questions about encodings
become linear arithmetic. -/

namespace Sys2Proof

theorem opcField_toNat (c : Word) : (opcField c).toNat = c.toNat / 2 ^ 24 := by
  have := c.isLt
  simp only [opcField, BitVec.extractLsb'_toNat, Nat.shiftRight_eq_div_pow]
  omega

theorem immField_toNat (c : Word) : (immField c).toNat = c.toNat % 2 ^ 8 := by
  simp [immField, BitVec.extractLsb'_toNat]

theorem modeField_toNat (c : Word) : (modeField c).toNat = c.toNat % 2 ^ 3 := by
  simp [modeField, BitVec.extractLsb'_toNat]

theorem dirField_eq (c : Word) : dirField c = decide (c.toNat / 2 ^ 3 % 2 = 1) := by
  simp [dirField, BitVec.getLsbD, Nat.testBit_eq_decide_div_mod_eq]

theorem bszField_eq (c : Word) : bszField c = if c.toNat / 2 ^ 4 % 2 = 1 then .b128 else .b64 := by
  simp [bszField, BitVec.getLsbD, Nat.testBit_eq_decide_div_mod_eq]

theorem encodeZ_toNat (opc : BitVec 8) : (encodeZ opc).toNat = opc.toNat * 2 ^ 24 := by
  have h : (encodeZ opc).toNat = opc.toNat <<< 24 ||| (0#24).toNat := BitVec.toNat_append ..
  rw [h]
  simp [Nat.shiftLeft_eq]

theorem encodeI_toNat (opc imm : BitVec 8) : (encodeI opc imm).toNat = opc.toNat * 2 ^ 24 + imm.toNat := by
  have h1 : (encodeI opc imm).toNat = (opc ++ 0#16).toNat <<< 8 ||| imm.toNat := BitVec.toNat_append ..
  have h2 : (opc ++ 0#16).toNat = opc.toNat <<< 16 ||| (0#16).toNat := BitVec.toNat_append ..
  rw [h1, ← Nat.shiftLeft_add_eq_or_of_lt imm.isLt, h2]
  simp [Nat.shiftLeft_eq]
  omega

theorem encodeC_toNat (mode : BitVec 3) (dir : BitVec 1) (bsz : BlockSize) :
    (encodeC mode dir bsz).toNat = 0x10000000 + bsz.bit.toNat * 2 ^ 4 + dir.toNat * 2 ^ 3 + mode.toNat := by
  revert mode dir
  cases bsz <;> decide +kernel

end Sys2Proof
end

