-- ==== Sys2Proof/Laws/State.lean ====
section
/-! SUPPORT. One lemma for each field under each update of the state, and for each field of STATUS under each of its
updates: true by rfl, so that no later proof unfolds a record update. -/

namespace Sys2Proof.Machine

/-! `succeed` -/

@[simp] theorem succeed_status (s : State) : (succeed s).status = s.status.succeed := rfl
@[simp] theorem succeed_rounds (s : State) : (succeed s).rounds = s.rounds := rfl
@[simp] theorem succeed_key (s : State) : (succeed s).key = s.key := rfl
@[simp] theorem succeed_iv (s : State) : (succeed s).iv = s.iv := rfl
@[simp] theorem succeed_din (s : State) : (succeed s).din = s.din := rfl
@[simp] theorem succeed_dout (s : State) : (succeed s).dout = s.dout := rfl
@[simp] theorem succeed_msglenLo (s : State) : (succeed s).msglenLo = s.msglenLo := rfl
@[simp] theorem succeed_msglenHi (s : State) : (succeed s).msglenHi = s.msglenHi := rfl
@[simp] theorem succeed_h (s : State) : (succeed s).h = s.h := rfl
@[simp] theorem succeed_buf (s : State) : (succeed s).buf = s.buf := rfl
@[simp] theorem succeed_bufbits (s : State) : (succeed s).bufbits = s.bufbits := rfl
@[simp] theorem succeed_pending (s : State) : (succeed s).pending = s.pending := rfl
@[simp] theorem succeed_responses (s : State) : (succeed s).responses = s.responses := rfl
@[simp] theorem succeed_freeUses (s : State) : (succeed s).freeUses = s.freeUses := rfl

/-! `reject` -/

@[simp] theorem reject_status (s : State) (cause : Cause) : (reject s cause).status = s.status.reject cause := rfl
@[simp] theorem reject_rounds (s : State) (cause : Cause) : (reject s cause).rounds = s.rounds := rfl
@[simp] theorem reject_key (s : State) (cause : Cause) : (reject s cause).key = s.key := rfl
@[simp] theorem reject_iv (s : State) (cause : Cause) : (reject s cause).iv = s.iv := rfl
@[simp] theorem reject_din (s : State) (cause : Cause) : (reject s cause).din = s.din := rfl
@[simp] theorem reject_dout (s : State) (cause : Cause) : (reject s cause).dout = s.dout := rfl
@[simp] theorem reject_msglenLo (s : State) (cause : Cause) : (reject s cause).msglenLo = s.msglenLo := rfl
@[simp] theorem reject_msglenHi (s : State) (cause : Cause) : (reject s cause).msglenHi = s.msglenHi := rfl
@[simp] theorem reject_h (s : State) (cause : Cause) : (reject s cause).h = s.h := rfl
@[simp] theorem reject_buf (s : State) (cause : Cause) : (reject s cause).buf = s.buf := rfl
@[simp] theorem reject_bufbits (s : State) (cause : Cause) : (reject s cause).bufbits = s.bufbits := rfl
@[simp] theorem reject_pending (s : State) (cause : Cause) : (reject s cause).pending = s.pending := rfl
@[simp] theorem reject_responses (s : State) (cause : Cause) : (reject s cause).responses = s.responses := rfl
@[simp] theorem reject_freeUses (s : State) (cause : Cause) : (reject s cause).freeUses = s.freeUses := rfl

/-! `respond` -/

@[simp] theorem respond_status (s : State) (r : Response) : (respond s r).status = s.status := rfl
@[simp] theorem respond_rounds (s : State) (r : Response) : (respond s r).rounds = s.rounds := rfl
@[simp] theorem respond_key (s : State) (r : Response) : (respond s r).key = s.key := rfl
@[simp] theorem respond_iv (s : State) (r : Response) : (respond s r).iv = s.iv := rfl
@[simp] theorem respond_din (s : State) (r : Response) : (respond s r).din = s.din := rfl
@[simp] theorem respond_dout (s : State) (r : Response) : (respond s r).dout = s.dout := rfl
@[simp] theorem respond_msglenLo (s : State) (r : Response) : (respond s r).msglenLo = s.msglenLo := rfl
@[simp] theorem respond_msglenHi (s : State) (r : Response) : (respond s r).msglenHi = s.msglenHi := rfl
@[simp] theorem respond_h (s : State) (r : Response) : (respond s r).h = s.h := rfl
@[simp] theorem respond_buf (s : State) (r : Response) : (respond s r).buf = s.buf := rfl
@[simp] theorem respond_bufbits (s : State) (r : Response) : (respond s r).bufbits = s.bufbits := rfl
@[simp] theorem respond_pending (s : State) (r : Response) : (respond s r).pending = s.pending := rfl
@[simp] theorem respond_responses (s : State) (r : Response) : (respond s r).responses = r :: s.responses := rfl
@[simp] theorem respond_freeUses (s : State) (r : Response) : (respond s r).freeUses = s.freeUses := rfl

/-! `acknowledge` -/

@[simp] theorem acknowledge_status (s : State) (v : Word) : (acknowledge s v).status = s.status.acknowledge v := rfl
@[simp] theorem acknowledge_rounds (s : State) (v : Word) : (acknowledge s v).rounds = s.rounds := rfl
@[simp] theorem acknowledge_key (s : State) (v : Word) : (acknowledge s v).key = s.key := rfl
@[simp] theorem acknowledge_iv (s : State) (v : Word) : (acknowledge s v).iv = s.iv := rfl
@[simp] theorem acknowledge_din (s : State) (v : Word) : (acknowledge s v).din = s.din := rfl
@[simp] theorem acknowledge_dout (s : State) (v : Word) : (acknowledge s v).dout = s.dout := rfl
@[simp] theorem acknowledge_msglenLo (s : State) (v : Word) : (acknowledge s v).msglenLo = s.msglenLo := rfl
@[simp] theorem acknowledge_msglenHi (s : State) (v : Word) : (acknowledge s v).msglenHi = s.msglenHi := rfl
@[simp] theorem acknowledge_h (s : State) (v : Word) : (acknowledge s v).h = s.h := rfl
@[simp] theorem acknowledge_buf (s : State) (v : Word) : (acknowledge s v).buf = s.buf := rfl
@[simp] theorem acknowledge_bufbits (s : State) (v : Word) : (acknowledge s v).bufbits = s.bufbits := rfl
@[simp] theorem acknowledge_pending (s : State) (v : Word) : (acknowledge s v).pending = s.pending := rfl
@[simp] theorem acknowledge_responses (s : State) (v : Word) : (acknowledge s v).responses = s.responses := rfl
@[simp] theorem acknowledge_freeUses (s : State) (v : Word) : (acknowledge s v).freeUses = s.freeUses := rfl

/-! `cipherDone` -/

@[simp] theorem cipherDone_status (s : State) (bsz : BlockSize) (o : Words4) : (cipherDone s bsz o).status = s.status.succeed := rfl
@[simp] theorem cipherDone_rounds (s : State) (bsz : BlockSize) (o : Words4) : (cipherDone s bsz o).rounds = s.rounds := rfl
@[simp] theorem cipherDone_key (s : State) (bsz : BlockSize) (o : Words4) : (cipherDone s bsz o).key = s.key := rfl
@[simp] theorem cipherDone_iv (s : State) (bsz : BlockSize) (o : Words4) : (cipherDone s bsz o).iv = s.iv := rfl
@[simp] theorem cipherDone_din (s : State) (bsz : BlockSize) (o : Words4) : (cipherDone s bsz o).din = s.din := rfl
@[simp] theorem cipherDone_dout (s : State) (bsz : BlockSize) (o : Words4) : (cipherDone s bsz o).dout = blockOf bsz o := rfl
@[simp] theorem cipherDone_msglenLo (s : State) (bsz : BlockSize) (o : Words4) : (cipherDone s bsz o).msglenLo = s.msglenLo := rfl
@[simp] theorem cipherDone_msglenHi (s : State) (bsz : BlockSize) (o : Words4) : (cipherDone s bsz o).msglenHi = s.msglenHi := rfl
@[simp] theorem cipherDone_h (s : State) (bsz : BlockSize) (o : Words4) : (cipherDone s bsz o).h = s.h := rfl
@[simp] theorem cipherDone_buf (s : State) (bsz : BlockSize) (o : Words4) : (cipherDone s bsz o).buf = s.buf := rfl
@[simp] theorem cipherDone_bufbits (s : State) (bsz : BlockSize) (o : Words4) : (cipherDone s bsz o).bufbits = s.bufbits := rfl
@[simp] theorem cipherDone_pending (s : State) (bsz : BlockSize) (o : Words4) : (cipherDone s bsz o).pending = s.pending := rfl
@[simp] theorem cipherDone_responses (s : State) (bsz : BlockSize) (o : Words4) : (cipherDone s bsz o).responses = s.responses := rfl
@[simp] theorem cipherDone_freeUses (s : State) (bsz : BlockSize) (o : Words4) : (cipherDone s bsz o).freeUses = s.freeUses := rfl

/-! `storeBits` -/

@[simp] theorem storeBits_status (s : State) (t : List Bool) : (storeBits s t).status = s.status := rfl
@[simp] theorem storeBits_rounds (s : State) (t : List Bool) : (storeBits s t).rounds = s.rounds := rfl
@[simp] theorem storeBits_key (s : State) (t : List Bool) : (storeBits s t).key = s.key := rfl
@[simp] theorem storeBits_iv (s : State) (t : List Bool) : (storeBits s t).iv = s.iv := rfl
@[simp] theorem storeBits_din (s : State) (t : List Bool) : (storeBits s t).din = s.din := rfl
@[simp] theorem storeBits_dout (s : State) (t : List Bool) : (storeBits s t).dout = s.dout := rfl
@[simp] theorem storeBits_msglenLo (s : State) (t : List Bool) : (storeBits s t).msglenLo = s.msglenLo := rfl
@[simp] theorem storeBits_msglenHi (s : State) (t : List Bool) : (storeBits s t).msglenHi = s.msglenHi := rfl
@[simp] theorem storeBits_h (s : State) (t : List Bool) : (storeBits s t).h = s.h := rfl
@[simp] theorem storeBits_buf (s : State) (t : List Bool) : (storeBits s t).buf = pad128 t := rfl
@[simp] theorem storeBits_bufbits (s : State) (t : List Bool) : (storeBits s t).bufbits = t.length := rfl
@[simp] theorem storeBits_pending (s : State) (t : List Bool) : (storeBits s t).pending = s.pending := rfl
@[simp] theorem storeBits_responses (s : State) (t : List Bool) : (storeBits s t).responses = s.responses := rfl
@[simp] theorem storeBits_freeUses (s : State) (t : List Bool) : (storeBits s t).freeUses = s.freeUses := rfl

/-! `hashInitWith` -/

@[simp] theorem hashInitWith_status (p : HashParams) (s : State) : (hashInitWith p s).status = s.status.hashDone .ready := rfl
@[simp] theorem hashInitWith_rounds (p : HashParams) (s : State) : (hashInitWith p s).rounds = s.rounds := rfl
@[simp] theorem hashInitWith_key (p : HashParams) (s : State) : (hashInitWith p s).key = s.key := rfl
@[simp] theorem hashInitWith_iv (p : HashParams) (s : State) : (hashInitWith p s).iv = s.iv := rfl
@[simp] theorem hashInitWith_din (p : HashParams) (s : State) : (hashInitWith p s).din = s.din := rfl
@[simp] theorem hashInitWith_dout (p : HashParams) (s : State) : (hashInitWith p s).dout = s.dout := rfl
@[simp] theorem hashInitWith_msglenLo (p : HashParams) (s : State) : (hashInitWith p s).msglenLo = 0 := rfl
@[simp] theorem hashInitWith_msglenHi (p : HashParams) (s : State) : (hashInitWith p s).msglenHi = 0 := rfl
@[simp] theorem hashInitWith_h (p : HashParams) (s : State) : (hashInitWith p s).h = p.initial := rfl
@[simp] theorem hashInitWith_buf (p : HashParams) (s : State) : (hashInitWith p s).buf = 0 := rfl
@[simp] theorem hashInitWith_bufbits (p : HashParams) (s : State) : (hashInitWith p s).bufbits = 0 := rfl
@[simp] theorem hashInitWith_pending (p : HashParams) (s : State) : (hashInitWith p s).pending = s.pending := rfl
@[simp] theorem hashInitWith_responses (p : HashParams) (s : State) : (hashInitWith p s).responses = s.responses := rfl
@[simp] theorem hashInitWith_freeUses (p : HashParams) (s : State) : (hashInitWith p s).freeUses = s.freeUses := rfl

/-! `resetCore` -/

@[simp] theorem resetCore_status (s : State) : (resetCore s).status = State.reset.status := rfl
@[simp] theorem resetCore_rounds (s : State) : (resetCore s).rounds = State.reset.rounds := rfl
@[simp] theorem resetCore_key (s : State) : (resetCore s).key = State.reset.key := rfl
@[simp] theorem resetCore_iv (s : State) : (resetCore s).iv = State.reset.iv := rfl
@[simp] theorem resetCore_din (s : State) : (resetCore s).din = State.reset.din := rfl
@[simp] theorem resetCore_dout (s : State) : (resetCore s).dout = State.reset.dout := rfl
@[simp] theorem resetCore_msglenLo (s : State) : (resetCore s).msglenLo = State.reset.msglenLo := rfl
@[simp] theorem resetCore_msglenHi (s : State) : (resetCore s).msglenHi = State.reset.msglenHi := rfl
@[simp] theorem resetCore_h (s : State) : (resetCore s).h = State.reset.h := rfl
@[simp] theorem resetCore_buf (s : State) : (resetCore s).buf = State.reset.buf := rfl
@[simp] theorem resetCore_bufbits (s : State) : (resetCore s).bufbits = State.reset.bufbits := rfl
@[simp] theorem resetCore_pending (s : State) : (resetCore s).pending = s.pending := rfl
@[simp] theorem resetCore_responses (s : State) : (resetCore s).responses = s.responses := rfl
@[simp] theorem resetCore_freeUses (s : State) : (resetCore s).freeUses = s.freeUses := rfl

/-! STATUS -/

@[simp] theorem status_succeed_lastFail (st : Status) : (st.succeed).lastFail = false := rfl
@[simp] theorem status_succeed_cmdErr (st : Status) : (st.succeed).cmdErr = st.cmdErr := rfl
@[simp] theorem status_succeed_cfgErr (st : Status) : (st.succeed).cfgErr = st.cfgErr := rfl
@[simp] theorem status_succeed_hashErr (st : Status) : (st.succeed).hashErr = st.hashErr := rfl
@[simp] theorem status_succeed_hstate (st : Status) : (st.succeed).hstate = st.hstate := rfl
@[simp] theorem status_hashDone_lastFail (st : Status) (hs : HState) : (st.hashDone hs).lastFail = false := rfl
@[simp] theorem status_hashDone_cmdErr (st : Status) (hs : HState) : (st.hashDone hs).cmdErr = st.cmdErr := rfl
@[simp] theorem status_hashDone_cfgErr (st : Status) (hs : HState) : (st.hashDone hs).cfgErr = st.cfgErr := rfl
@[simp] theorem status_hashDone_hashErr (st : Status) (hs : HState) : (st.hashDone hs).hashErr = st.hashErr := rfl
@[simp] theorem status_hashDone_hstate (st : Status) (hs : HState) : (st.hashDone hs).hstate = hs := rfl
@[simp] theorem status_acknowledge_lastFail (st : Status) (v : Word) : (st.acknowledge v).lastFail = st.lastFail := rfl
@[simp] theorem status_acknowledge_cmdErr (st : Status) (v : Word) : (st.acknowledge v).cmdErr = (st.cmdErr && !v.getLsbD 1) := rfl
@[simp] theorem status_acknowledge_cfgErr (st : Status) (v : Word) : (st.acknowledge v).cfgErr = (st.cfgErr && !v.getLsbD 2) := rfl
@[simp] theorem status_acknowledge_hashErr (st : Status) (v : Word) : (st.acknowledge v).hashErr = (st.hashErr && !v.getLsbD 3) := rfl
@[simp] theorem status_acknowledge_hstate (st : Status) (v : Word) : (st.acknowledge v).hstate = st.hstate := rfl

@[simp] theorem status_reject_lastFail (st : Status) (c : Cause) : (st.reject c).lastFail = true := by cases c <;> rfl
@[simp] theorem status_reject_hstate (st : Status) (c : Cause) : (st.reject c).hstate = st.hstate := by cases c <;> rfl
@[simp] theorem status_reject_sticky (st : Status) (c d : Cause) :
    (st.reject c).sticky d = (st.sticky d || decide (c = d)) := by
  cases c <;> cases d <;> simp [Status.reject, Status.sticky]
@[simp] theorem status_succeed_sticky (st : Status) (c : Cause) : st.succeed.sticky c = st.sticky c := by
  cases c <;> rfl
@[simp] theorem status_hashDone_sticky (st : Status) (hs : HState) (c : Cause) :
    (st.hashDone hs).sticky c = st.sticky c := by
  cases c <;> rfl

end Sys2Proof.Machine
end

