-- ==== Sys2Proof/Laws/Ops.lean ====
section
/-! SUPPORT. What each shared operation, each command and one step can do, said once. -/

namespace Sys2Proof.Machine

/-! ## Operations -/

/-- The cipher commands, with their block size. -/
def isCipher (i : Instr) (bsz : BlockSize) : Prop :=
  i = .ecbEnc bsz ∨ i = .ecbDec bsz ∨ i = .cbcEnc bsz ∨ i = .cbcDec bsz ∨ i = .cfbEnc bsz ∨ i = .cfbDec bsz ∨
    i = .ofbEnc bsz ∨ i = .ofbDec bsz ∨ i = .ctrEnc bsz ∨ i = .ctrDec bsz

theorem accepts_iff (hs : HState) : hs.accepts = true ↔ hs = .ready ∨ hs = .accum := by cases hs <;> simp [HState.accepts]

theorem roundvalLegal_iff (v : BitVec 8) : roundvalLegal v = true ↔ 9 ≤ v.toNat ∧ v.toNat ≤ 22 := by
  simp [roundvalLegal]

/-- A legal ROUNDVAL keeps its value in the five bits of ROUNDS. -/
theorem roundval_setWidth (v : BitVec 8) (h : v.toNat ≤ 22) : (v.setWidth 5).toNat = v.toNat := by
  simp
  omega

/-- Consuming bits leaves everything but H, BUF and BUFBITS as it was. -/
theorem absorb_frame (p : HashParams) (s : State) (t : List Bool) :
    absorb p s t = { s with h := (absorb p s t).h, buf := (absorb p s t).buf, bufbits := (absorb p s t).bufbits } := by
  unfold absorb
  split <;> rfl

/-- The bits left after consuming t. -/
def leftOver (t : List Bool) : List Bool := if 128 ≤ t.length then t.drop 128 else t

@[simp] theorem absorb_buf (p : HashParams) (s : State) (t : List Bool) : (absorb p s t).buf = pad128 (leftOver t) := by
  unfold absorb leftOver
  split <;> rfl

@[simp] theorem absorb_bufbits (p : HashParams) (s : State) (t : List Bool) :
    (absorb p s t).bufbits = (leftOver t).length := by
  unfold absorb leftOver
  split <;> rfl

@[simp] theorem absorb_status (p : HashParams) (s : State) (t : List Bool) : (absorb p s t).status = s.status := by
  unfold absorb
  split <;> rfl

/-- H is compressed with the first block exactly when there is one. -/
theorem absorb_h (p : HashParams) (s : State) (t : List Bool) :
    (absorb p s t).h = if 128 ≤ t.length then compress p s.h (words (pad128 (t.take 128))) else s.h := by
  unfold absorb
  split <;> rfl

theorem chunk_length (n : Nat) (s : State) : (chunk n s).length = min n 128 := by simp [chunk]

theorem buffered_length (s : State) : (buffered s).length = min s.bufbits 128 := by simp [buffered]

/-- A padded string keeps R39: after its own bits, nothing but zeros. -/
theorem pad128_shiftLeft_length (l : List Bool) : pad128 l <<< l.length = 0#128 := by
  apply BitVec.eq_of_getMsbD_eq
  intro q hq
  rw [BitVec.getMsbD_shiftLeft, getMsbD_pad128]
  simp

/-- The length block is MSGLEN's two halves in the last two words (R207). -/
theorem lengthBlock_eq (s : State) : lengthBlock s = ⟨0, 0, s.msglenHi, s.msglenLo⟩ := by
  simp only [lengthBlock, msglen, (extract_append32 _ _).1, (extract_append32 _ _).2]

/-- The padding block of an empty buffer (R205). -/
theorem paddingBlock_empty (s : State) (h : s.bufbits = 0) : paddingBlock s = ⟨0x80000000, 0, 0, 0⟩ := by
  simp only [paddingBlock, buffered, h, List.take_zero, List.nil_append]
  decide +kernel

/-- HASH_FINAL in a state that allows it. -/
theorem hashFinalWith_eq (p : HashParams) (s : State) (h : s.status.hstate.accepts = true) :
    hashFinalWith p s = { s with
      h := compress p (compress p s.h (paddingBlock s)) ⟨0, 0, s.msglenHi, s.msglenLo⟩
      buf := 0
      bufbits := 0
      status := s.status.hashDone .final } := by
  rw [hashFinalWith, if_pos h, lengthBlock_eq]

/-- HASH_UPDATE in a state that allows it. -/
theorem hashUpdateWith_eq (p : HashParams) (n : Nat) (s : State) (h : s.status.hstate.accepts = true) :
    hashUpdateWith p n s = { absorb p s (buffered s ++ chunk n s) with status := s.status.hashDone .accum } := by
  rw [hashUpdateWith, if_pos h]
  simp only [absorb_status]

/-! ## Commands -/

/-- What `exec` can do: a rejection, or the command's own effect. -/
theorem exec_inv (i : Instr) (s t : State) (h : exec i s = .next t) :
    (∃ cause, t = reject s cause ∧
      ((cause = .cfgErr ∧ ∃ v, i = .setRounds v ∧ roundvalLegal v = false) ∨
       (cause = .cmdErr ∧ ∃ n, i = .hashUpdate n ∧ ¬ n.toNat ≤ 128) ∨
       (cause = .hashErr ∧ (i = .hashFinal ∨ ∃ n, i = .hashUpdate n) ∧ s.status.hstate.accepts = false))) ∨
    (i = .nop ∧ t = succeed s) ∨
    (∃ v, i = .setRounds v ∧ roundvalLegal v = true ∧ t = succeed { s with rounds := v.setWidth 5 }) ∨
    (∃ bsz o, isCipher i bsz ∧ t = cipherDone s bsz o) ∨
    (i = .hashInit ∧ t = hashInitWith Config.hash s) ∨
    (∃ n, i = .hashUpdate n ∧ n.toNat ≤ 128 ∧ s.status.hstate.accepts = true ∧
      t = { absorb Config.hash s (buffered s ++ chunk n.toNat s) with status := s.status.hashDone .accum }) ∨
    (i = .hashFinal ∧ s.status.hstate.accepts = true ∧
      t = { s with
        h := compress Config.hash (compress Config.hash s.h (paddingBlock s)) (lengthBlock s)
        buf := 0
        bufbits := 0
        status := s.status.hashDone .final }) := by
  cases i with
  | nop => cases h; exact .inr (.inl ⟨rfl, rfl⟩)
  | setRounds v =>
    simp only [exec, execSetRounds] at h
    split at h <;> cases h
    · rename_i hv
      exact .inr (.inr (.inl ⟨v, rfl, hv, rfl⟩))
    · rename_i hv
      exact .inl ⟨.cfgErr, rfl, .inl ⟨rfl, v, rfl, by simpa using hv⟩⟩
  | ecbEnc b => cases h; exact .inr (.inr (.inr (.inl ⟨b, _, by simp [isCipher], rfl⟩)))
  | ecbDec b => cases h; exact .inr (.inr (.inr (.inl ⟨b, _, by simp [isCipher], rfl⟩)))
  | cbcEnc b => cases h; exact .inr (.inr (.inr (.inl ⟨b, _, by simp [isCipher], rfl⟩)))
  | cbcDec b => cases h; exact .inr (.inr (.inr (.inl ⟨b, _, by simp [isCipher], rfl⟩)))
  | cfbEnc b => cases h; exact .inr (.inr (.inr (.inl ⟨b, _, by simp [isCipher], rfl⟩)))
  | cfbDec b => cases h; exact .inr (.inr (.inr (.inl ⟨b, _, by simp [isCipher], rfl⟩)))
  | ofbEnc b => cases h; exact .inr (.inr (.inr (.inl ⟨b, _, by simp [isCipher], rfl⟩)))
  | ofbDec b => cases h; exact .inr (.inr (.inr (.inl ⟨b, _, by simp [isCipher], rfl⟩)))
  | ctrEnc b => cases h; exact .inr (.inr (.inr (.inl ⟨b, _, by simp [isCipher], rfl⟩)))
  | ctrDec b => cases h; exact .inr (.inr (.inr (.inl ⟨b, _, by simp [isCipher], rfl⟩)))
  | hashInit => cases h; exact .inr (.inr (.inr (.inr (.inl ⟨rfl, rfl⟩))))
  | hashUpdate n =>
    simp only [exec, execHashUpdate] at h
    split at h <;> cases h
    · rename_i hn
      unfold hashUpdateWith
      split
      · rename_i ha
        exact .inr (.inr (.inr (.inr (.inr (.inl ⟨n, rfl, hn, ha, by simp only [absorb_status]⟩)))))
      · rename_i ha
        exact .inl ⟨.hashErr, rfl, .inr (.inr ⟨rfl, .inr ⟨n, rfl⟩, by simpa using ha⟩)⟩
    · rename_i hn
      exact .inl ⟨.cmdErr, rfl, .inr (.inl ⟨rfl, n, rfl, hn⟩)⟩
  | hashFinal =>
    simp only [exec, execHashFinal] at h
    cases h
    unfold hashFinalWith
    split
    · rename_i ha
      exact .inr (.inr (.inr (.inr (.inr (.inr ⟨rfl, ha, rfl⟩)))))
    · rename_i ha
      exact .inl ⟨.hashErr, rfl, .inr (.inr ⟨rfl, .inl rfl, by simpa using ha⟩)⟩

/-- No command touches what stands outside the core, nor KEY, IV and DIN. -/
theorem exec_frame (i : Instr) (s t : State) (h : exec i s = .next t) :
    t.pending = s.pending ∧ t.responses = s.responses ∧ t.freeUses = s.freeUses ∧ t.key = s.key ∧ t.iv = s.iv ∧
      t.din = s.din := by
  rcases exec_inv i s t h with ⟨c, rfl, -⟩ | ⟨-, rfl⟩ | ⟨v, -, -, rfl⟩ | ⟨b, o, -, rfl⟩ | ⟨-, rfl⟩ | ⟨n, -, -, -, rfl⟩ |
    ⟨-, -, rfl⟩ <;> try exact ⟨rfl, rfl, rfl, rfl, rfl, rfl⟩
  rw [absorb_frame]
  exact ⟨rfl, rfl, rfl, rfl, rfl, rfl⟩

/-! ## The port and the step -/

/-- The register at an offset is the one whose offset it is. -/
theorem regAt_eq_some (off : Int) (r : Reg) : regAt off = some r ↔ off = (r.offset : Int) := by
  constructor
  · intro h
    unfold regAt at h
    split at h
    · rename_i hc
      unfold regAtWord at h
      split at h <;> first
        | (cases h; rename_i hk; simp [Reg.offset]; omega)
        | cases h
    · cases h
  · rintro rfl
    cases r <;> try rfl
    all_goals
      rename_i i
      revert i
      decide

/-- A read that R63 lets through is a four-byte read of a readable register at its offset. -/
theorem checkAccess_read (a : Access) (r : Reg) :
    checkAccess a = .ok (.read r) ↔ a = .read r.offset 4 ∧ r.readable = true := by
  cases a with
  | read off width =>
    cases hr : regAt off with
    | none =>
      have : off ≠ (r.offset : Int) := fun h => by simp [(regAt_eq_some off r).2 h] at hr
      simp [checkAccess, hr, this]
    | some r' =>
      have h1 := (regAt_eq_some off r').1 hr
      by_cases hc : width = 4 ∧ r'.readable = true
      · simp only [checkAccess, hr, hc, and_self, if_true]
        constructor
        · intro h
          cases h
          exact ⟨by rw [h1], hc.2⟩
        · rintro ⟨h, -⟩
          injection h with h2
          rw [(regAt_eq_some off r).2 h2] at hr
          cases hr
          rfl
      · simp only [checkAccess, hr, hc, if_false]
        constructor
        · intro h
          cases h
        · rintro ⟨h, h3⟩
          injection h with h2 h4
          rw [(regAt_eq_some off r).2 h2] at hr
          cases hr
          exact absurd ⟨h4, h3⟩ hc
  | write off width v =>
    simp only [checkAccess, reduceCtorEq, false_and, iff_false]
    split
    · split <;> simp
    · simp

/-- A write that R63 lets through is a four-byte write of a writable register at its offset. -/
theorem checkAccess_write (a : Access) (r : Reg) (v : Word) :
    checkAccess a = .ok (.write r v) ↔ a = .write r.offset 4 v ∧ r.writable = true := by
  cases a with
  | write off width v' =>
    cases hr : regAt off with
    | none =>
      have : off ≠ (r.offset : Int) := fun h => by simp [(regAt_eq_some off r).2 h] at hr
      simp [checkAccess, hr, this]
    | some r' =>
      have h1 := (regAt_eq_some off r').1 hr
      by_cases hc : width = 4 ∧ r'.writable = true
      · simp only [checkAccess, hr, hc, and_self, if_true]
        constructor
        · intro h
          cases h
          exact ⟨by rw [h1], hc.2⟩
        · rintro ⟨h, -⟩
          injection h with h2 h4 h5
          subst h5
          rw [(regAt_eq_some off r).2 h2] at hr
          cases hr
          rfl
      · simp only [checkAccess, hr, hc, if_false]
        constructor
        · intro h
          cases h
        · rintro ⟨h, h3⟩
          injection h with h2 h4
          rw [(regAt_eq_some off r).2 h2] at hr
          cases hr
          exact absurd ⟨h4, h3⟩ hc
  | read off width =>
    simp only [checkAccess, reduceCtorEq, false_and, iff_false]
    split
    · split <;> simp
    · simp

/-- The only access that runs a command is a four-byte write at offset 0x00. -/
theorem checkAccess_cmd (a : Access) (c : Word) : checkAccess a = .ok (.write .cmd c) ↔ a = .write 0x00 4 c := by
  rw [checkAccess_write]
  simp [Reg.offset, Reg.writable]

/-- What one access can do: a bus error, a read, a register write, or a command. -/
theorem performAccess_inv (a : Access) (s t : State) (h : performAccess a s = .next t) :
    (∃ f, checkAccess a = .error f ∧ t = respond s (.error f)) ∨
    (∃ r v, checkAccess a = .ok (.read r) ∧ readReg s r = some v ∧ t = respond s (.data v)) ∨
    (∃ r v, r ≠ .cmd ∧ checkAccess a = .ok (.write r v) ∧ t = respond (writeReg s r v) .done) ∨
    (∃ c, checkAccess a = .ok (.write .cmd c) ∧ ∃ u, runCommand c s = .next u ∧ t = respond u .done) := by
  unfold performAccess at h
  split at h
  · rename_i f hf
    cases h
    exact .inl ⟨f, hf, rfl⟩
  · rename_i r hr
    split at h
    · rename_i v hv
      cases h
      exact .inr (.inl ⟨r, v, hr, hv, rfl⟩)
    · rename_i hv
      cases r <;> simp [readReg] at hv
      exfalso
      unfold checkAccess at hr
      split at hr
      · split at hr
        · split at hr
          · rename_i hw
            cases hr
            simp [Reg.readable] at hw
          · cases hr
        · cases hr
      · split at hr
        · split at hr <;> cases hr
        · cases hr
  · rename_i c hc
    refine .inr (.inr (.inr ⟨c, hc, ?_⟩))
    unfold answered at h
    split at h
    · rename_i u hu
      cases h
      exact ⟨u, hu, rfl⟩
    · cases h
    · cases h
  · rename_i r v hne hrv
    cases h
    exact .inr (.inr (.inl ⟨r, v, hne, hrv, rfl⟩))

/-- A step with an input is that input's effect on the state without it. -/
theorem step_cons (s : State) (inp : Input) (rest : List Input) (h : s.pending = inp :: rest) :
    step s = performInput inp { s with pending := rest } := by
  simp [step, nextInput, h]

/-- The step of a CMD write: the command's effect, or the rejection of an illegal word, then the answer. -/
theorem step_command (s : State) (rest : List Input) (c : Word) (h : s.pending = .access (.write 0x00 4 c) :: rest) :
    step s = answered (runCommand c { s with pending := rest }) := by
  rw [step_cons s _ rest h]
  simp only [performInput, performAccess, (checkAccess_cmd _ c).2 rfl]

/-- Everything a step with an input can do. -/
theorem step_inv (s t : State) (inp : Input) (rest : List Input) (hp : s.pending = inp :: rest) (h : step s = .next t) :
    (∃ a f, inp = .access a ∧ checkAccess a = .error f ∧ t = respond { s with pending := rest } (.error f)) ∨
    (∃ (r : Reg) (v : Word), inp = .access (.read r.offset 4) ∧ r.readable = true ∧ t = respond { s with pending := rest } (.data v)) ∨
    (∃ (r : Reg) (v : Word), inp = .access (.write r.offset 4 v) ∧ r.writable = true ∧ r ≠ .cmd ∧
      t = respond (writeReg { s with pending := rest } r v) .done) ∨
    (∃ c why, inp = .access (.write 0x00 4 c) ∧ decode c = .error why ∧
      t = respond (reject { s with pending := rest } .cmdErr) .done) ∨
    (∃ c i u, inp = .access (.write 0x00 4 c) ∧ decode c = .ok i ∧ exec i { s with pending := rest } = .next u ∧
      t = respond u .done) ∨
    (inp = .reset ∧ t = resetCore { s with pending := rest }) ∨
    (∃ c, inp = .resetDuringCommand c ∧ t = resetDuring { s with pending := rest }) := by
  rw [step_cons s inp rest hp] at h
  cases inp with
  | reset => exact .inr (.inr (.inr (.inr (.inr (.inl ⟨rfl, by cases h; rfl⟩)))))
  | resetDuringCommand c => exact .inr (.inr (.inr (.inr (.inr (.inr ⟨c, rfl, by cases h; rfl⟩)))))
  | access a =>
    rcases performAccess_inv a _ t h with ⟨f, hf, rfl⟩ | ⟨r, v, hr, -, rfl⟩ | ⟨r, v, hne, hr, rfl⟩ | ⟨c, hc, u, hu, rfl⟩
    · exact .inl ⟨a, f, rfl, hf, rfl⟩
    · obtain ⟨rfl, hrd⟩ := (checkAccess_read a r).1 hr
      exact .inr (.inl ⟨r, v, rfl, hrd, rfl⟩)
    · obtain ⟨rfl, hw⟩ := (checkAccess_write a r v).1 hr
      exact .inr (.inr (.inl ⟨r, v, rfl, hw, hne, rfl⟩))
    · have ha := (checkAccess_cmd a c).1 hc
      subst ha
      unfold runCommand at hu
      split at hu
      · rename_i i hi
        exact .inr (.inr (.inr (.inr (.inl ⟨c, i, u, rfl, hi, hu, rfl⟩))))
      · rename_i why hwhy
        cases hu
        exact .inr (.inr (.inr (.inl ⟨c, why, rfl, hwhy, rfl⟩)))

end Sys2Proof.Machine
end

