-- ==== Sys2Proof/Laws/PerInstr.lean ====
section
/-! SUPPORT. The families of lemmas about every command as syntax: a Statement, and one lemma for each constructor. -/

/-! The word of a command, whatever its fields, has the bits that its row of R86 fixes. -/

/-- The row of R86's match table that the command's mnemonic names has the command's word. -/
def Sys2Proof.Laws.EncodingMatchesItsRow.Statement (i : Sys2Proof.Instr) : Prop :=
  ∃ row ∈ Sys2Proof.matchTable, row.mnemonic = i.mnemonic ∧ Sys2Proof.encode i &&& row.mask = row.pattern

namespace Sys2Proof.Laws.EncodingMatchesItsRow

theorem nop : Statement .nop := ⟨⟨"NOP", 0x00000000, 0xFFFFFFFF⟩, by decide, rfl, by decide⟩

theorem setRounds (roundval : BitVec 8) : Statement (.setRounds roundval) :=
  ⟨⟨"SET_ROUNDS", 0x01000000, 0xFFFFFF00⟩, by decide, rfl, by revert roundval; decide +kernel⟩

theorem ecbEnc (bsz : BlockSize) : Statement (.ecbEnc bsz) :=
  ⟨⟨"ECB_ENC", 0x10000000, 0xFFFFFFEF⟩, by decide, rfl, by cases bsz <;> decide⟩

theorem ecbDec (bsz : BlockSize) : Statement (.ecbDec bsz) :=
  ⟨⟨"ECB_DEC", 0x10000008, 0xFFFFFFEF⟩, by decide, rfl, by cases bsz <;> decide⟩

theorem cbcEnc (bsz : BlockSize) : Statement (.cbcEnc bsz) :=
  ⟨⟨"CBC_ENC", 0x10000001, 0xFFFFFFEF⟩, by decide, rfl, by cases bsz <;> decide⟩

theorem cbcDec (bsz : BlockSize) : Statement (.cbcDec bsz) :=
  ⟨⟨"CBC_DEC", 0x10000009, 0xFFFFFFEF⟩, by decide, rfl, by cases bsz <;> decide⟩

theorem cfbEnc (bsz : BlockSize) : Statement (.cfbEnc bsz) :=
  ⟨⟨"CFB_ENC", 0x10000002, 0xFFFFFFEF⟩, by decide, rfl, by cases bsz <;> decide⟩

theorem cfbDec (bsz : BlockSize) : Statement (.cfbDec bsz) :=
  ⟨⟨"CFB_DEC", 0x1000000A, 0xFFFFFFEF⟩, by decide, rfl, by cases bsz <;> decide⟩

theorem ofbEnc (bsz : BlockSize) : Statement (.ofbEnc bsz) :=
  ⟨⟨"OFB_ENC", 0x10000003, 0xFFFFFFEF⟩, by decide, rfl, by cases bsz <;> decide⟩

theorem ofbDec (bsz : BlockSize) : Statement (.ofbDec bsz) :=
  ⟨⟨"OFB_DEC", 0x1000000B, 0xFFFFFFEF⟩, by decide, rfl, by cases bsz <;> decide⟩

theorem ctrEnc (bsz : BlockSize) : Statement (.ctrEnc bsz) :=
  ⟨⟨"CTR_ENC", 0x10000004, 0xFFFFFFEF⟩, by decide, rfl, by cases bsz <;> decide⟩

theorem ctrDec (bsz : BlockSize) : Statement (.ctrDec bsz) :=
  ⟨⟨"CTR_DEC", 0x1000000C, 0xFFFFFFEF⟩, by decide, rfl, by cases bsz <;> decide⟩

theorem hashInit : Statement .hashInit := ⟨⟨"HASH_INIT", 0x20000000, 0xFFFFFFFF⟩, by decide, rfl, by decide⟩

theorem hashUpdate (nbits : BitVec 8) : Statement (.hashUpdate nbits) :=
  ⟨⟨"HASH_UPDATE", 0x21000000, 0xFFFFFF00⟩, by decide, rfl, by revert nbits; decide +kernel⟩

theorem hashFinal : Statement .hashFinal := ⟨⟨"HASH_FINAL", 0x22000000, 0xFFFFFFFF⟩, by decide, rfl, by decide⟩

end Sys2Proof.Laws.EncodingMatchesItsRow
end

