-- ==== Sys2Proof/Laws/Primitives.lean ====
section
/-! SUPPORT. The round primitives bit by bit: byte lanes, and what the permutation's loop computes. -/

namespace Sys2Proof.Machine

/-- Four bytes joined, bit by bit: the last one is the lowest. -/
theorem getLsbD_append8 (a b c d : Byte) (i : Nat) :
    (a ++ b ++ c ++ d : BitVec 32).getLsbD i =
      if i < 8 then d.getLsbD i else if i < 16 then c.getLsbD (i - 8)
      else if i < 24 then b.getLsbD (i - 16) else a.getLsbD (i - 24) := by
  have h1 := BitVec.getLsbD_append (x := a ++ b ++ c) (y := d) (i := i)
  have h2 := BitVec.getLsbD_append (x := a ++ b) (y := c) (i := i - 8)
  have h3 := BitVec.getLsbD_append (x := a) (y := b) (i := i - 8 - 8)
  refine h1.trans ?_
  split
  · rfl
  · refine h2.trans ?_
    rw [h3]
    repeat' split
    all_goals first
      | rfl
      | omega

/-- The byte lanes of four bytes joined. -/
theorem byteLane_append (a b c d : Byte) :
    byteLane (a ++ b ++ c ++ d) 0 = d ∧ byteLane (a ++ b ++ c ++ d) 1 = c ∧ byteLane (a ++ b ++ c ++ d) 2 = b ∧
      byteLane (a ++ b ++ c ++ d) 3 = a := by
  refine ⟨?_, ?_, ?_, ?_⟩ <;>
  · apply BitVec.eq_of_getLsbD_eq
    intro i hi
    rw [byteLane, BitVec.getLsbD_extractLsb', getLsbD_append8]
    simp only [hi, decide_true, Bool.true_and]
    repeat' split
    all_goals first
      | omega
      | (congr 1; omega)

/-- A word is its four byte lanes joined. -/
theorem append_byteLanes (w : Word) :
    (byteLane w 3 ++ byteLane w 2 ++ byteLane w 1 ++ byteLane w 0 : BitVec 32) = w := by
  apply BitVec.eq_of_getLsbD_eq
  intro i hi
  rw [getLsbD_append8]
  simp only [byteLane, BitVec.getLsbD_extractLsb']
  repeat' split
  · rw [show decide (i < 8) = true by simp; omega, Bool.true_and]
    congr 1
    omega
  · rw [show decide (i - 8 < 8) = true by simp; omega, Bool.true_and]
    congr 1
    omega
  · rw [show decide (i - 16 < 8) = true by simp; omega, Bool.true_and]
    congr 1
    omega
  · rw [show decide (i - 24 < 8) = true by simp; omega, Bool.true_and]
    congr 1
    omega

theorem getLsbD_putBit {n : Nat} (y : BitVec n) (k : Nat) (b : Bool) (hk : k < n) (j : Nat) :
    (putBit y k b).getLsbD j = (y.getLsbD j || (decide (j = k) && b)) := by
  simp only [putBit, BitVec.getLsbD_or, BitVec.getLsbD_shiftLeft, BitVec.getLsbD_setWidth]
  by_cases hj : j = k
  · subst hj
    have h0 : 0 < n := by omega
    simp [hk, h0]
  · by_cases hjk : j < k
    · simp [hjk, hj]
    · have : j - k ≠ 0 := by omega
      simp [hj, this, BitVec.getLsbD_ofBool]

/-- The two cursors after one more turn of the loop. -/
theorem permuteFrom_succ {n : Nat} (x m : BitVec n) (left k hi lo : Nat) (y : BitVec n) :
    permuteFrom x m (left + 1) k hi lo y =
      if m.getLsbD k then permuteFrom x m left (k + 1) (hi - 1) lo (putBit y k (x.getLsbD hi))
      else permuteFrom x m left (k + 1) hi (lo + 1) (putBit y k (x.getLsbD lo)) := rfl

/-- The loop leaves the bits already made, provided nothing from bit k on has been made yet. -/
theorem permuteFrom_below {n : Nat} (x m : BitVec n) (left k hi lo : Nat) (y : BitVec n) (hn : k + left = n) (q : Nat)
    (hq : q < k) : (permuteFrom x m left k hi lo y).getLsbD q = y.getLsbD q := by
  induction left generalizing k hi lo y with
  | zero => rfl
  | succ left ih =>
    have hne : q ≠ k := by omega
    rw [permuteFrom_succ]
    split <;> rw [ih (k + 1) _ _ _ (by omega) (by omega), getLsbD_putBit _ _ _ (by omega)] <;> simp [hne]

end Sys2Proof.Machine
end

