-- ==== Sys2Proof/Tests/Slice0.lean ====
section
/-! SUPPORT. The model's own tests. Every expected value is the spec's: 95_test_vectors.md where a section is named, else the
rule named. The witness theorems show a concrete state and operands that meet the hypotheses of a statement. -/

namespace Sys2Proof.Machine

/-! ## States to test on -/

/-- The common cipher inputs of 95_test_vectors.md section 2.4, with a given round count. -/
def demo (n : BitVec 5) : State :=
  { State.reset with
    rounds := n
    key := ⟨0x00010203, 0x04050607, 0x08090a0b, 0x0c0d0e0f⟩
    iv := ⟨0xa0a1a2a3, 0xa4a5a6a7, 0xa8a9aaab, 0xacadaeaf⟩
    din := ⟨0x00112233, 0x44556677, 0x8899aabb, 0xccddeeff⟩ }

/-- A state with a given STATUS. -/
def withStatus (st : Status) : State := { demo 12 with status := st }

/-- A state in a given HSTATE, no flag set. -/
def inHash (hs : HState) : State := withStatus ⟨false, false, false, false, hs⟩

/-- A state in ACCUM holding a given number of buffered bits, all 1. -/
def holding (n : Nat) : State := storeBits (inHash .accum) (List.replicate n true)

/-- A state in which the host issues these inputs. -/
def issuing (s : State) (inputs : List Input) : State := { s with pending := inputs }

/-- A state in which the host's next access is this one. -/
def accessing (s : State) (a : Access) : State := issuing s [.access a]

/-- A state in which the host's next access writes c to CMD. -/
def commanding (s : State) (c : Word) : State := accessing s (.write 0x00 4 c)

/-- The state an answer leads to, or a given state. -/
def nextOr (s : State) : Result → State
  | .next t => t
  | .fault _ => s
  | .refused _ => s

/-- The state after one step. -/
def after (s : State) : State := nextOr s (step s)

/-- The state after the host's write of c to CMD, by way of the interface the host asks about. -/
def afterWord (s : State) (c : Nat) : State := after (s.withFetchWord 32 c)

/-- The parameter instance P_TEST. -/
def pTest : HashParams := ⟨fun i => BitVec.ofNat 32 i.val, fun j => BitVec.ofNat 32 j.val⟩

/-! ## WellFormed -/

/-- R83, R89. -/
theorem test_wf_refuses_nbits_129 : (Instr.hashUpdate 129).wf = false := by decide

/-- R83, R89. -/
theorem test_wf_refuses_nbits_255 : (Instr.hashUpdate 255).wf = false := by decide

/-- R83: 128 is the last legal NBITS, and every ROUNDVAL is legal to encode. -/
theorem test_wf_accepts_the_boundary : (Instr.hashUpdate 128).wf = true ∧ (Instr.setRounds 255).wf = true := by decide

/-! ## Decode: each constructor from a word of R86's table, then words laid out field by field from R81 and R82 -/

theorem test_decode_control :
    decode 0x00000000 = .ok .nop ∧ decode 0x01000009 = .ok (.setRounds 9) ∧ decode 0x010000FF = .ok (.setRounds 255) := by
  decide

theorem test_decode_cipher_64 :
    decode 0x10000000 = .ok (.ecbEnc .b64) ∧ decode 0x10000001 = .ok (.cbcEnc .b64) ∧
    decode 0x10000002 = .ok (.cfbEnc .b64) ∧ decode 0x10000003 = .ok (.ofbEnc .b64) ∧
    decode 0x10000004 = .ok (.ctrEnc .b64) ∧ decode 0x10000008 = .ok (.ecbDec .b64) ∧
    decode 0x10000009 = .ok (.cbcDec .b64) ∧ decode 0x1000000A = .ok (.cfbDec .b64) ∧
    decode 0x1000000B = .ok (.ofbDec .b64) ∧ decode 0x1000000C = .ok (.ctrDec .b64) := by decide

theorem test_decode_cipher_128 :
    decode 0x10000010 = .ok (.ecbEnc .b128) ∧ decode 0x10000011 = .ok (.cbcEnc .b128) ∧
    decode 0x10000012 = .ok (.cfbEnc .b128) ∧ decode 0x10000013 = .ok (.ofbEnc .b128) ∧
    decode 0x10000014 = .ok (.ctrEnc .b128) ∧ decode 0x10000018 = .ok (.ecbDec .b128) ∧
    decode 0x10000019 = .ok (.cbcDec .b128) ∧ decode 0x1000001A = .ok (.cfbDec .b128) ∧
    decode 0x1000001B = .ok (.ofbDec .b128) ∧ decode 0x1000001C = .ok (.ctrDec .b128) := by decide

theorem test_decode_hash :
    decode 0x20000000 = .ok .hashInit ∧ decode 0x21000018 = .ok (.hashUpdate 24) ∧
    decode 0x22000000 = .ok .hashFinal := by decide

theorem test_decode_fields_laid_out :
    decode (0x00#8 ++ 0#24) = .ok .nop ∧
    decode (0x01#8 ++ 0#16 ++ 0b00010110#8) = .ok (.setRounds 22) ∧
    decode (0x10#8 ++ 0#19 ++ 0b1#1 ++ 0b0#1 ++ 0b010#3) = .ok (.cfbEnc .b128) ∧
    decode (0x10#8 ++ 0#19 ++ 0b0#1 ++ 0b1#1 ++ 0b001#3) = .ok (.cbcDec .b64) ∧
    decode (0x21#8 ++ 0#16 ++ 0b00001000#8) = .ok (.hashUpdate 8) := by decide

/-- Section 2.7: the words there that no obligation samples. -/
theorem test_decode_illegal :
    decode 0x1000000F = .error .mode ∧ decode 0x10800000 = .error .mustBeZero ∧
    decode 0x20000001 = .error .mustBeZero ∧ decode 0x210000FF = .error .nbits ∧
    decode 0x02000000 = .error .opcode := by decide

/-- The host's view of the decoder. -/
theorem test_decode_table_word :
    decodeTableWord 32 0x10000019 = some (.cbcDec .b128) ∧ decodeTableWord 32 0x10000005 = none := by decide

/-! ## Primitives -/

/-- The hand-traced case of R104, and section 2.1. -/
theorem test_permute :
    permute (0b10110010 : BitVec 8) 0b00001111 = 0b00101101 ∧
    permute (0xDEADBEEF : BitVec 32) 0x0F0F0F0F = 0xBBE5E7FB ∧
    permute (0x0123456789ABCDEF : BitVec 64) 0x00000000FFFFFFFF = 0x89ABCDEFE6A2C480 := by decide +kernel

/-- Section 2.2, key KB: the last four pool words. -/
theorem test_key_pool_end :
    (keyExpand ⟨0x2b7e1516, 0x28aed2a6, 0xabf71588, 0x09cf4f3c⟩).drop 40 =
      [0xd014f9a8, 0xc9ee2589, 0xe13f0cc8, 0xb6630ca6] := by decide +kernel

/-- Section 2.9: RK[63], Fh, and a compression under P_TEST. -/
theorem test_hash_core :
    (hks pTest ⟨0, 1, 2, 3⟩).getLast? = some 0xdde283f5 ∧ fh 0xffffffff 0 = (0x16166363, 0x63631616) ∧
    compress pTest pTest.initial ⟨0x00112233, 0x44556677, 0x8899aabb, 0xccddeeff⟩ =
      ⟨0xde3497d2, 0x499ff297, 0xab36fc2b, 0x84a84b9c, 0x8858ebf1, 0x902d4e05, 0xe230be2d, 0x496aed03⟩ := by
  decide +kernel

/-! ## One step of each command -/

/-- Section 2.6: NOP from STATUS = 0x03. -/
theorem test_nop : (afterWord (withStatus ⟨true, true, false, false, .idle⟩) 0x00000000).status.word = 0x02 := by decide

/-- Section 2.6. -/
theorem test_setRounds_in_range :
    (afterWord (demo 12) 0x01000009).rounds = 9 ∧ (afterWord (demo 12) 0x01000009).status.word = 0x00 := by decide

/-- Section 2.6. -/
theorem test_setRounds_out_of_range :
    (afterWord (demo 12) 0x01000017).rounds = 12 ∧ (afterWord (demo 12) 0x01000017).status.word = 0x05 := by decide

/-! Section 2.4, ROUNDS = 9. -/

theorem test_ecbEnc_64 : (afterWord (demo 9) 0x10000000).dout = ⟨0x334d1a91, 0xd7ff880a, 0, 0⟩ := by decide +kernel

theorem test_ecbEnc_128 :
    (afterWord (demo 9) 0x10000010).dout = ⟨0xcaafdd80, 0xd21d9fd8, 0x82b00788, 0x1e1ed50d⟩ := by decide +kernel

theorem test_ecbDec_64 : (afterWord (demo 9) 0x10000008).dout = ⟨0xdb10561b, 0x542f85c3, 0, 0⟩ := by decide +kernel

theorem test_ecbDec_128 :
    (afterWord (demo 9) 0x10000018).dout = ⟨0xd6604be1, 0x30d7243e, 0x4891196e, 0x0fb2e71a⟩ := by decide +kernel

theorem test_cbcEnc_64 : (afterWord (demo 9) 0x10000001).dout = ⟨0x9f46926e, 0x54d79dd0, 0, 0⟩ := by decide +kernel

theorem test_cbcEnc_128 :
    (afterWord (demo 9) 0x10000011).dout = ⟨0xb65383d9, 0x605a98cd, 0xdf858c94, 0x3807a062⟩ := by decide +kernel

theorem test_cbcDec_64 : (afterWord (demo 9) 0x10000009).dout = ⟨0x7bb1f4b8, 0xf08a2364, 0, 0⟩ := by decide +kernel

theorem test_cbcDec_128 :
    (afterWord (demo 9) 0x10000019).dout = ⟨0x76c1e942, 0x94728299, 0xe038b3c5, 0xa31f49b5⟩ := by decide +kernel

theorem test_cfbEnc : (afterWord (demo 9) 0x10000002).dout = ⟨0x79baa5a4, 0x300c9778, 0, 0⟩ := by decide +kernel

theorem test_cfbDec :
    (afterWord (demo 9) 0x1000001A).dout = ⟨0x65f387b8, 0x0a7e8ccb, 0xc3669a9c, 0x052259fc⟩ := by decide +kernel

theorem test_ofbEnc :
    (afterWord (demo 9) 0x10000013).dout = ⟨0x65f387b8, 0x0a7e8ccb, 0xc3669a9c, 0x052259fc⟩ := by decide +kernel

theorem test_ofbDec : (afterWord (demo 9) 0x1000000B).dout = ⟨0x79baa5a4, 0x300c9778, 0, 0⟩ := by decide +kernel

theorem test_ctrEnc : (afterWord (demo 9) 0x10000004).dout = ⟨0x79baa5a4, 0x300c9778, 0, 0⟩ := by decide +kernel

theorem test_ctrDec :
    (afterWord (demo 9) 0x1000001C).dout = ⟨0x65f387b8, 0x0a7e8ccb, 0xc3669a9c, 0x052259fc⟩ := by decide +kernel

/-- Section 2.10: HASH_INIT in FINAL gives STATUS = 0x18 with HASH_ERR still set, MSGLEN = 0 and BUFBITS = 0. -/
theorem test_hashInit :
    (afterWord { withStatus ⟨true, false, false, true, .final⟩ with msglenLo := 24 } 0x20000000).status.word = 0x18 ∧
    (afterWord { withStatus ⟨true, false, false, true, .final⟩ with msglenLo := 24 } 0x20000000).msglenLo = 0 := by decide

/-- Section 2.10, "abc" with garbage after NBITS: the buffer takes the 24 bits only. -/
theorem test_hashUpdate_buffers :
    (afterWord { inHash .ready with din := ⟨0x616263ff, 0xffffffff, 0x12345678, 0x9abcdef0⟩ } 0x21000018).buf =
      0x61626300000000000000000000000000 ∧
    (afterWord { inHash .ready with din := ⟨0x616263ff, 0xffffffff, 0x12345678, 0x9abcdef0⟩ } 0x21000018).status.word =
      0x20 := by
  decide +kernel

/-- R202's example, under P_TEST. -/
theorem test_hashUpdate_compresses :
    (hashUpdateWith pTest 128 (hashInitWith pTest (demo 12))).h =
      ⟨0xde3497d2, 0x499ff297, 0xab36fc2b, 0x84a84b9c, 0x8858ebf1, 0x902d4e05, 0xe230be2d, 0x496aed03⟩ := by decide +kernel

/-- Section 2.10, the digest of "abc" under P_TEST. -/
theorem test_hashFinal :
    (hashFinalWith pTest { inHash .accum with
        h := pTest.initial
        msglenLo := 24
        buf := 0x61626300000000000000000000000000
        bufbits := 24 }).h =
      ⟨0xd35b7ce9, 0x0acba45e, 0x135c140e, 0xee82c09c, 0xc33512ca, 0xd91b286e, 0x92bce3c5, 0x65ab30ab⟩ := by decide +kernel

/-- Section 2.10: HASH_FINAL in FINAL is rejected. -/
theorem test_hashFinal_rejected : (afterWord (inHash .final) 0x22000000).status.word = 0x39 := by decide

/-! ## Host accesses: section 2.8 -/

theorem test_status_write :
    (after (accessing (withStatus ⟨true, true, true, true, .final⟩) (.write 0x04 4 0xFFFFFFFF))).status.word = 0x31 := by
  decide

theorem test_bus_errors :
    ([.read 0x00 4, .write 0x08 4 0, .write 0x40 4 0, .write 0x60 4 0, .read 0x0C 4, .write 0x58 4 0, .read 0x80 4,
        .read 0x02 4, .read 0x10 2, .read (-4) 4] : List Access).all
      (fun a => (after (accessing (demo 12) a)).responses == [.error (.busError (match a with
        | .read off _ => off
        | .write off _ _ => off))]) = true := by decide

theorem test_write_then_read :
    (after (after (issuing (demo 12) [.access (.write 0x14 4 5), .access (.read 0x14 4)]))).responses =
      [.data 0x00000005, .done] := by decide

theorem test_read_rounds : (after (accessing (demo 22) (.read 0x08 4))).responses = [.data 0x00000016] := by decide

/-- Program P3, line 1: an NBITS of 255 in IDLE records CMD_ERR only. -/
theorem test_priority : (afterWord (inHash .idle) 0x210000FF).status.word = 0x03 := by decide

/-- R260: nothing is left of the command that a reset cuts off. -/
theorem test_reset_during_command :
    (after (issuing (inHash .accum) [.resetDuringCommand 0x22000000])).status = Status.reset ∧
    (after (issuing (inHash .accum) [.resetDuringCommand 0x22000000])).key = ⟨0, 0, 0, 0⟩ := by decide

/-! ## Host programs (R213) -/

/-- `Update` of a 129-bit message takes two HASH_UPDATE commands, of 128 bits and of 1 bit (section 2.10). -/
theorem test_software_update :
    softUpdate (List.replicate 129 true) =
      [.setlen 129, .ldin ⟨0xFFFFFFFF, 0xFFFFFFFF, 0xFFFFFFFF, 0xFFFFFFFF⟩, .command (.hashUpdate 128),
        .ldin ⟨0x80000000, 0, 0, 0⟩, .command (.hashUpdate 1)] := by decide +kernel

/-- R15: an `Update` of no bits still issues one HASH_UPDATE, so it moves READY to ACCUM (D45; log entry 20). -/
theorem test_software_update_empty :
    softUpdate [] = [.setlen 0, .command (.hashUpdate 0)] ∧
    (after (issuing (inHash .ready) [commandWrite (encode (.hashUpdate 0))])).status.hstate = .accum := by decide

/-! ## Witnesses: the hypotheses of each statement can be met -/

theorem witness_DecodeOfEncodeIsTheCommand :
    (Instr.hashUpdate 128).wf = true ∧ (Instr.setRounds 255).wf = true ∧ (Instr.ctrDec .b128).wf = true := by decide

theorem witness_LegalWordIsEncodingOfItsCommand : decode 0x21000080 = .ok (.hashUpdate 128) := by decide

theorem witness_DecodeFollowsTheMatchTable :
    ((⟨"HASH_UPDATE", 0x21000000, 0xFFFFFF00⟩ : MatchRow) ∈ matchTable ∧
      (0x21000080 : Word) &&& 0xFFFFFF00 = 0x21000000 ∧ ((0x21000080 : Word).extractLsb' 0 8).toNat ≤ 128) ∧
    decode 0x010000FF = .ok (.setRounds 255) ∧ decode 0x21000000 = .ok (.hashUpdate 0) ∧
    (decode 0x1000001C = .ok (.ctrDec .b128) ∧ (0x1000001C : Word).extractLsb' 24 8 = 0x10#8) := by decide

theorem witness_IllegalWordsAreRejectedWithCmdErr :
    (commanding (demo 12) 0x23000000).pending = [.access (.write 0x00 4 0x23000000)] ∧
    decode 0x23000000 = .error .opcode ∧ decode 0x22000001 = .error .mustBeZero ∧
    decode 0x10000005 = .error .mode ∧ decode 0x21000081 = .error .nbits := by decide

theorem witness_StepRunsTheDecodedCommand :
    (commanding (demo 12) 0x10000011).pending = [.access (.write 0x00 4 0x10000011)] ∧
    decode 0x10000011 = .ok (.cbcEnc .b128) := by decide

theorem witness_IdleStepChangesNothing : (demo 12).pending = [] := by decide

/-- Every offset a clause of the statement reads, the first and the last of each group. -/
theorem witness_ReadReturnsTheRegister :
    ([0x04, 0x08, 0x10, 0x1C, 0x20, 0x2C, 0x30, 0x3C, 0x40, 0x4C, 0x50, 0x54, 0x60, 0x7C] : List Int).all
      (fun off => (accessing (demo 12) (.read off 4)).pending == [.access (.read off 4)]) = true ∧
    (let st : Status := ⟨true, false, true, false, .accum⟩
     let v : Word := 0x25
     v.getLsbD 0 = st.lastFail ∧ v.getLsbD 1 = st.cmdErr ∧ v.getLsbD 2 = st.cfgErr ∧ v.getLsbD 3 = st.hashErr ∧
     v.extractLsb' 4 2 = st.hstate.code ∧ v.extractLsb' 6 26 = 0#26) := by decide

theorem witness_DataRegisterWriteStoresTheValue :
    ([0x10, 0x1C, 0x20, 0x2C, 0x30, 0x3C, 0x50, 0x54] : List Int).all
      (fun off => (accessing (demo 12) (.write off 4 5)).pending == [.access (.write off 4 5)]) = true := by decide

theorem witness_StatusWriteClearsTheSelectedFlags :
    (accessing (withStatus ⟨true, true, true, true, .final⟩) (.write 0x04 4 0x0E)).pending =
      [.access (.write 0x04 4 0x0E)] := by decide

/-- Accesses that are bus errors, one for each condition of R63, and accesses that are not; each step answers next. -/
theorem witness_BusErrorExactlyUnderTheSixConditions :
    (∀ a : Access, (accessing (demo 12) a).pending = [.access a]) ∧
    step (accessing (demo 12) (.read 0x10 2)) = .next (after (accessing (demo 12) (.read 0x10 2))) ∧
    step (accessing (demo 12) (.read 0x02 4)) = .next (after (accessing (demo 12) (.read 0x02 4))) ∧
    step (accessing (demo 12) (.write 0x80 4 0)) = .next (after (accessing (demo 12) (.write 0x80 4 0))) ∧
    step (accessing (demo 12) (.read (-4) 4)) = .next (after (accessing (demo 12) (.read (-4) 4))) ∧
    step (accessing (demo 12) (.write 0x5C 4 0)) = .next (after (accessing (demo 12) (.write 0x5C 4 0))) ∧
    step (accessing (demo 12) (.read 0x00 4)) = .next (after (accessing (demo 12) (.read 0x00 4))) ∧
    step (accessing (demo 12) (.write 0x7C 4 0)) = .next (after (accessing (demo 12) (.write 0x7C 4 0))) ∧
    step (accessing (demo 12) (.read 0x7C 4)) = .next (after (accessing (demo 12) (.read 0x7C 4))) ∧
    step (accessing (demo 12) (.write 0x54 4 0)) = .next (after (accessing (demo 12) (.write 0x54 4 0))) :=
  ⟨fun _ => rfl, rfl, rfl, rfl, rfl, rfl, rfl, rfl, rfl, rfl⟩

theorem witness_WriteThenReadWindow :
    (Reg.key 1).writable = true ∧ Reg.key 1 ≠ .cmd ∧ Reg.key 1 ≠ .status ∧
    Reg.msglenHi.writable = true ∧ Reg.msglenHi ≠ .cmd ∧ Reg.msglenHi ≠ .status ∧ Reg.h 7 ≠ .cmd := by decide

theorem witness_AddressOutsideTheWindowIsBusError : Config.base + 0x7F < Config.base + 0x80 := by omega

/-- No step, and the last one. -/
theorem witness_PseudoInstructionsRunTheirExpansions :
    State.reset.pending = [] ∧ 0 ≤ (AsmLine.setlen 24).accesses.length ∧ 2 ≤ (AsmLine.setlen 24).accesses.length := by decide

theorem witness_ResetInputRestoresTheResetState :
    (issuing (demo 12) [.reset]).pending = [.reset] ∧
    (issuing (demo 12) [.resetDuringCommand 0x22000000]).pending = [.resetDuringCommand 0x22000000] := by decide

/-- R102's split on bit 7, and R100's split on b = 0. -/
theorem witness_of_the_byte_case_splits :
    (0x80 : Byte).getLsbD 7 = true ∧ (0x7F : Byte).getLsbD 7 = false ∧ (0x53 : Byte) ≠ 0 ∧ (0 : Byte) = 0 := by decide

theorem witness_PermuteRoutesEachBitByTheCursors : 0 < 32 ∧ 31 < 32 ∧ 63 < 64 := by decide

theorem witness_KeyPoolFollowsTheRecurrence : (4 ≤ 4 ∧ 4 ≤ 43) ∧ (4 ≤ 43 ∧ 43 ≤ 43) ∧ 1 ≤ 1 := by decide

theorem witness_FeistelRoundsInOrderAndInReverse : 0 < 22 ∧ 21 < 22 := by decide

theorem witness_FeistelRoundTrip :
    blockOf .b64 ⟨1, 2, 0, 0⟩ = ⟨1, 2, 0, 0⟩ ∧ blockOf .b128 ⟨1, 2, 3, 4⟩ = ⟨1, 2, 3, 4⟩ := by decide

/-- One state meets the example hypotheses of ECB_ENC, ECB_DEC, CBC_ENC, CBC_DEC and the keystream commands. -/
theorem witness_of_the_cipher_examples :
    (demo 12).key = ⟨0x00010203, 0x04050607, 0x08090a0b, 0x0c0d0e0f⟩ ∧ (demo 12).rounds = 12 ∧
    (demo 12).din = ⟨0x00112233, 0x44556677, 0x8899aabb, 0xccddeeff⟩ ∧
    (demo 12).iv = ⟨0xa0a1a2a3, 0xa4a5a6a7, 0xa8a9aaab, 0xacadaeaf⟩ ∧
    ({ demo 12 with din := ⟨0, 0, 0, 0⟩ } : State).din = ⟨0, 0, 0, 0⟩ := by decide

/-- CBC with I = 0: a zero IV, and for a 64-bit block an IV whose first two words are 0. -/
theorem witness_CbcEncWritesFeistelOfInputXorIv :
    blockOf .b128 ({ demo 12 with iv := ⟨0, 0, 0, 0⟩ } : State).iv = ⟨0, 0, 0, 0⟩ ∧
    blockOf .b64 ({ demo 12 with iv := ⟨0, 0, 1, 1⟩ } : State).iv = ⟨0, 0, 0, 0⟩ := by decide

theorem witness_KeystreamCommandsWriteFeistelOfIvXorInput :
    ∃ i : Instr, i = .cfbEnc .b64 ∨ i = .cfbDec .b64 ∨ i = .ofbEnc .b64 ∨ i = .ofbDec .b64 ∨ i = .ctrEnc .b64 ∨
      i = .ctrDec .b64 := ⟨.ctrDec .b64, by decide⟩

theorem witness_SmallBlockIgnoresAndClearsTheHighWords :
    ∃ i : Instr, i = .ecbEnc .b64 ∨ i = .ecbDec .b64 ∨ i = .cbcEnc .b64 ∨ i = .cbcDec .b64 ∨ i = .cfbEnc .b64 ∨
      i = .cfbDec .b64 ∨ i = .ofbEnc .b64 ∨ i = .ofbDec .b64 ∨ i = .ctrEnc .b64 ∨ i = .ctrDec .b64 :=
  ⟨.cbcDec .b64, by decide⟩

theorem witness_CipherRoundTripInEveryMode :
    ∃ enc dec : Instr, (enc = .ecbEnc .b128 ∧ dec = .ecbDec .b128) ∨ (enc = .cbcEnc .b128 ∧ dec = .cbcDec .b128) ∨
      (enc = .cfbEnc .b128 ∧ dec = .cfbDec .b128) ∨ (enc = .ofbEnc .b128 ∧ dec = .ofbDec .b128) ∨
      (enc = .ctrEnc .b128 ∧ dec = .ctrDec .b128) := ⟨.cbcEnc .b128, .cbcDec .b128, by decide⟩

theorem witness_NopClearsLastFailOnly :
    (withStatus ⟨true, true, false, false, .idle⟩).status.word = 0x00000003 ∧
    (0x00000001 : Word).extractLsb' 24 8 = 0x00#8 ∧ (0x00000001 : Word).extractLsb' 0 24 ≠ 0#24 ∧
    (Instr.hashUpdate 128).wf = true ∧ Instr.hashUpdate 128 ≠ .nop := by decide

/-- The first and last legal ROUNDVAL, the illegal ones beside them, and the example's state. -/
theorem witness_SetRoundsStoresLegalValuesOnly :
    (9 ≤ (9 : BitVec 8).toNat ∧ (9 : BitVec 8).toNat ≤ 22) ∧ (9 ≤ (22 : BitVec 8).toNat ∧ (22 : BitVec 8).toNat ≤ 22) ∧
    (8 : BitVec 8).toNat < 9 ∧ 22 < (23 : BitVec 8).toNat ∧ (demo 12).rounds = 12 ∧ (demo 12).status.word = 0 := by decide

theorem witness_CompressionIsSixtyFourRounds : 0 < 64 ∧ 63 < 64 := by decide

/-- NBITS at its boundary in every HSTATE, with fewer than 128 bits in hand and with 128 or more. -/
theorem witness_HashUpdateAppendsTheChunk :
    (128 : BitVec 8).toNat ≤ 128 ∧ (inHash .ready).status.hstate = .ready ∧ (inHash .accum).status.hstate = .accum ∧
    (inHash .idle).status.hstate = .idle ∧ (inHash .final).status.hstate = .final ∧
    (buffered (holding 127) ++ chunk 0 (holding 127)).length < 128 ∧
    128 ≤ (buffered (holding 127) ++ chunk 1 (holding 127)).length := by decide +kernel

theorem witness_HashFinalCompressesPaddingThenLength :
    ((holding 127).bufbits ≤ 127 ∧ (holding 127).status.hstate = .accum) ∧
    ((holding 0).bufbits ≤ 127 ∧ (holding 0).bufbits = 0 ∧ (holding 0).status.hstate = .accum) ∧
    (inHash .ready).status.hstate = .ready ∧ (inHash .idle).status.hstate = .idle ∧
    (inHash .final).status.hstate = .final := by decide +kernel

theorem witness_WrongStateHashCommandsAreRejected :
    (inHash .idle).status.hstate = .idle ∧ (inHash .final).status.hstate = .final ∧
    (∃ nbits : BitVec 8, nbits.toNat ≤ 128 ∧ Instr.hashUpdate 128 = .hashUpdate nbits) :=
  ⟨rfl, rfl, 128, by decide, rfl⟩

theorem witness_EncodingErrorComesBeforeHashState :
    128 < (129 : BitVec 8).toNat ∧ 128 < (255 : BitVec 8).toNat ∧
    (commanding (demo 12) (0x21000000 ||| (255 : BitVec 8).setWidth 32)).pending =
      [.access (.write 0x00 4 0x210000FF)] := by decide

theorem witness_HashStateTransitions :
    (Instr.hashUpdate 128).wf = true ∧ (inHash .idle).status.hstate = .idle ∧ (inHash .final).status.hstate = .final ∧
    (accessing (inHash .accum) (.write 0x54 4 9)).pending = [.access (.write 0x54 4 9)] ∧
    (∀ c, Access.write 0x54 4 9 ≠ .write 0x00 4 c) ∧
    step (accessing (inHash .accum) (.write 0x54 4 9)) = .next (after (accessing (inHash .accum) (.write 0x54 4 9))) :=
  ⟨by decide, rfl, rfl, rfl, fun c h => by injection h with h1; exact absurd h1 (by decide), rfl⟩

/-- The 24 bits of "abc" as 24 and as 8 + 16 (section 2.10), from a buffer that holds 127 bits. -/
theorem witness_StreamingDoesNotDependOnTheSplit :
    (holding 127).bufbitsLegal ∧ (holding 127).bufPadded ∧ (holding 127).status.hstate = .accum ∧
    (let xs : List (Words4 × Nat) := [(⟨0x61626300, 0, 0, 0⟩, 24)]
     let ys : List (Words4 × Nat) := [(⟨0x61000000, 0, 0, 0⟩, 8), (⟨0x62630000, 0, 0, 0⟩, 16)]
     xs.all (fun c => c.2 ≤ 128) = true ∧ ys.all (fun c => c.2 ≤ 128) = true ∧
     (xs.flatMap fun c => (bitsOf c.1.cat).take c.2) = (ys.flatMap fun c => (bitsOf c.1.cat).take c.2)) := by
  decide +kernel

theorem witness_HashCommandsIgnoreTheCipherRegisters :
    (∃ nbits, Instr.hashUpdate 24 = .hashUpdate nbits) ∧
    ∃ c : Instr, c = .ecbEnc .b64 ∨ c = .ecbDec .b64 ∨ c = .cbcEnc .b64 ∨ c = .cbcDec .b64 ∨ c = .cfbEnc .b64 ∨
      c = .cfbDec .b64 ∨ c = .ofbEnc .b64 ∨ c = .ofbDec .b64 ∨ c = .ctrEnc .b64 ∨ c = .ctrDec .b64 :=
  ⟨⟨24, rfl⟩, .cbcEnc .b64, by decide⟩

/-- Each clause of R24: the flag is set by an illegal word, and cleared by a STATUS write and by reset. -/
theorem witness_CmdErrIsSetAndClearedOnlyAsStated :
    (decode 0x23000000 = .error .opcode ∧ (demo 12).status.cmdErr = false ∧
      (after (commanding (demo 12) 0x23000000)).status.cmdErr = true ∧
      step (commanding (demo 12) 0x23000000) = .next (after (commanding (demo 12) 0x23000000))) ∧
    (let s := withStatus ⟨true, true, true, true, .final⟩
     s.status.cmdErr = true ∧ (after (accessing s (.write 0x04 4 2))).status.cmdErr = false ∧
      (after (issuing s [.reset])).status.cmdErr = false ∧
      step (accessing s (.write 0x04 4 2)) = .next (after (accessing s (.write 0x04 4 2))) ∧
      step (issuing s [.reset]) = .next (after (issuing s [.reset]))) :=
  ⟨⟨rfl, rfl, rfl, rfl⟩, rfl, rfl, rfl, rfl, rfl⟩

theorem witness_CfgErrIsSetAndClearedOnlyAsStated :
    (decode 0x01000008 = .ok (.setRounds 8) ∧ (8 : BitVec 8).toNat < 9 ∧ (demo 12).status.cfgErr = false ∧
      (after (commanding (demo 12) 0x01000008)).status.cfgErr = true ∧
      step (commanding (demo 12) 0x01000008) = .next (after (commanding (demo 12) 0x01000008))) ∧
    (let s := withStatus ⟨true, true, true, true, .final⟩
     s.status.cfgErr = true ∧ (after (accessing s (.write 0x04 4 4))).status.cfgErr = false ∧
      step (accessing s (.write 0x04 4 4)) = .next (after (accessing s (.write 0x04 4 4)))) :=
  ⟨⟨rfl, by decide, rfl, rfl, rfl⟩, rfl, rfl, rfl⟩

theorem witness_HashErrIsSetAndClearedOnlyAsStated :
    (decode 0x22000000 = .ok .hashFinal ∧ (inHash .final).status.hstate = .final ∧
      (inHash .final).status.hashErr = false ∧ (after (commanding (inHash .final) 0x22000000)).status.hashErr = true ∧
      step (commanding (inHash .final) 0x22000000) = .next (after (commanding (inHash .final) 0x22000000))) ∧
    (let s := withStatus ⟨true, true, true, true, .final⟩
     s.status.hashErr = true ∧ (after (accessing s (.write 0x04 4 8))).status.hashErr = false ∧
      step (accessing s (.write 0x04 4 8)) = .next (after (accessing s (.write 0x04 4 8)))) :=
  ⟨⟨rfl, rfl, rfl, rfl, rfl⟩, rfl, rfl, rfl⟩

/-- A CMD write, and an access that is none. -/
theorem witness_LastFailTellsOfTheLastCommand :
    step (commanding (demo 12) 0x01000009) = .next (after (commanding (demo 12) 0x01000009)) ∧
    step (accessing (demo 12) (.read 0x04 4)) = .next (after (accessing (demo 12) (.read 0x04 4))) ∧
    (∀ c, Input.access (.read 0x04 4) ≠ .access (.write 0x00 4 c)) ∧ (Input.access (.read 0x04 4)).resets = false :=
  ⟨rfl, rfl, fun c h => (by injection h with h1; cases h1), rfl⟩

theorem witness_OperandRegistersChangeOnlyByHostWrites :
    (Input.access (.write 0x1C 4 5)).resets = false ∧
    step (accessing (demo 12) (.write 0x1C 4 5)) = .next (after (accessing (demo 12) (.write 0x1C 4 5))) ∧
    (after (accessing (demo 12) (.write 0x1C 4 5))).key.get 3 ≠ (demo 12).key.get 3 ∧
    (after (accessing (demo 12) (.write 0x20 4 5))).iv.get 0 ≠ (demo 12).iv.get 0 ∧
    (after (accessing (demo 12) (.write 0x3C 4 5))).din.get 3 ≠ (demo 12).din.get 3 :=
  ⟨rfl, rfl, by decide, by decide, by decide⟩

theorem witness_ResultRegistersChangeOnlyByTheirCommands :
    (after (commanding (demo 12) 0x01000009)).rounds ≠ (demo 12).rounds ∧
    (after (commanding (demo 9) 0x10000000)).dout ≠ (demo 9).dout ∧
    (after (accessing (demo 12) (.write 0x50 4 5))).msglenLo ≠ (demo 12).msglenLo ∧
    (after (accessing (demo 12) (.write 0x54 4 5))).msglenHi ≠ (demo 12).msglenHi ∧
    (after (commanding (inHash .ready) 0x21000018)).bufbits ≠ (inHash .ready).bufbits := by decide +kernel

theorem witness_RejectionChangesStatusOnly :
    step (commanding (demo 12) 0x01000017) = .next (after (commanding (demo 12) 0x01000017)) ∧
    (after (commanding (demo 12) 0x01000017)).status.lastFail = true := ⟨rfl, by decide⟩

/-- R29 and R39 at their boundaries, before a step that answers next. -/
theorem witness_EveryStepKeepsRoundsAndBufferLegal :
    (demo 9).Inv ∧ (demo 22).Inv ∧ (holding 127).Inv ∧
    step (commanding (demo 9) 0x01000016) = .next (after (commanding (demo 9) 0x01000016)) :=
  ⟨by decide, by decide, by decide +kernel, rfl⟩

theorem witness_BufferStaysEmptyOutsideAccum :
    (inHash .ready).bufEmptyOutsideAccum ∧ (holding 127).bufEmptyOutsideAccum ∧
    step (commanding (demo 9) 0x01000016) = .next (after (commanding (demo 9) 0x01000016)) :=
  ⟨by decide, by decide, rfl⟩

end Sys2Proof.Machine
end

