-- ==== Sys2Proof/Proofs/StatusFlags.lean ====
section
/-! STATUS and reset (10_state.md R22 to R28, R42): why a command is rejected, what each kind of input does to STATUS,
and the statements about the sticky flags, LAST_FAIL and the reset values. -/

namespace Sys2Proof.Machine

/-! ## Why a command is rejected -/

theorem accepts_eq_false_iff (hs : HState) : hs.accepts = false ↔ hs = .idle ∨ hs = .final := by
  cases hs <;> simp [HState.accepts]

theorem roundvalLegal_eq_false_iff (v : BitVec 8) : roundvalLegal v = false ↔ v.toNat < 9 ∨ 22 < v.toNat := by
  rw [← Bool.not_eq_true, roundvalLegal_iff]
  omega

theorem decodeCipher_ne_hashUpdate (mode : BitVec 3) (dir : Bool) (bsz : BlockSize) (n : BitVec 8) :
    decodeCipher mode dir bsz ≠ .ok (.hashUpdate n) := by
  unfold decodeCipher
  split <;> simp

/-- The decoder makes no HASH_UPDATE with NBITS above 128 (R83, R89). -/
theorem nbits_le_of_decode (c : Word) (n : BitVec 8) (h : decode c = .ok (.hashUpdate n)) : n.toNat ≤ 128 := by
  have hZ : ∀ i, i ≠ .hashUpdate n → decodeZ c i ≠ .ok (.hashUpdate n) := by
    intro i hi
    unfold decodeZ
    split <;> simp [hi]
  have hR : decodeSetRounds c ≠ .ok (.hashUpdate n) := by
    unfold decodeSetRounds
    split <;> simp
  have hC : decodeC c ≠ .ok (.hashUpdate n) := by
    unfold decodeC
    split
    · exact decodeCipher_ne_hashUpdate _ _ _ n
    · simp
  have hU : decodeHashUpdate c = .ok (.hashUpdate n) := by
    unfold decode at h
    split_ifs at h
    · exact absurd h (hZ _ (by simp))
    · exact absurd h hR
    · exact absurd h hC
    · exact absurd h (hZ _ (by simp))
    · exact h
    · exact absurd h (hZ _ (by simp))
  unfold decodeHashUpdate at hU
  split_ifs at hU with _ hn
  cases hU
  exact hn

/-- R240: the cause for which a decoded command word is rejected in hash state `hs`; none when the command completes. -/
def rejectionCause (hs : HState) : Except Illegal Instr → Option Cause
  | .error _ => some .cmdErr
  | .ok (.setRounds v) => if roundvalLegal v then none else some .cfgErr
  | .ok (.hashUpdate _) => if hs.accepts then none else some .hashErr
  | .ok .hashFinal => if hs.accepts then none else some .hashErr
  | .ok _ => none

/-- A cipher command is never rejected (R150). -/
theorem rejectionCause_cipher (hs : HState) (i : Instr) (bsz : BlockSize) (h : isCipher i bsz) :
    rejectionCause hs (.ok i) = none := by
  rcases h with rfl | rfl | rfl | rfl | rfl | rfl | rfl | rfl | rfl | rfl <;> rfl

theorem rejectionCause_eq_cmdErr (hs : HState) (d : Except Illegal Instr) :
    rejectionCause hs d = some .cmdErr ↔ ∃ why, d = .error why := by
  rcases d with why | i
  · simp [rejectionCause]
  · cases i <;> simp [rejectionCause]

theorem rejectionCause_eq_cfgErr (hs : HState) (d : Except Illegal Instr) :
    rejectionCause hs d = some .cfgErr ↔ ∃ v, d = .ok (.setRounds v) ∧ (v.toNat < 9 ∨ 22 < v.toNat) := by
  rcases d with why | i
  · simp [rejectionCause]
  · cases i <;> simp [rejectionCause, roundvalLegal_eq_false_iff]

theorem rejectionCause_eq_hashErr (hs : HState) (d : Except Illegal Instr) :
    rejectionCause hs d = some .hashErr ↔
      ∃ i, d = .ok i ∧ (i = .hashFinal ∨ ∃ n, i = .hashUpdate n) ∧ (hs = .idle ∨ hs = .final) := by
  rcases d with why | i
  · simp [rejectionCause]
  · cases i <;> simp [rejectionCause, accepts_eq_false_iff]

/-! ## What an input does to STATUS -/

/-- What a command does to STATUS: a rejected one sets LAST_FAIL and its cause's flag, a completed one clears LAST_FAIL
and at most moves HSTATE (R41). -/
theorem runCommand_status (c : Word) (s t : State) (h : runCommand c s = .next t) :
    (∃ cause, rejectionCause s.status.hstate (decode c) = some cause ∧ t.status = s.status.reject cause) ∨
    (rejectionCause s.status.hstate (decode c) = none ∧ t.status = s.status.hashDone t.status.hstate) := by
  unfold runCommand at h
  cases hd : decode c with
  | error why =>
    simp only [hd] at h
    cases h
    exact .inl ⟨.cmdErr, rfl, rfl⟩
  | ok i =>
    simp only [hd] at h
    rcases exec_inv i s t h with ⟨cause, rfl, hcause⟩ | ⟨rfl, rfl⟩ | ⟨v, rfl, hv, rfl⟩ | ⟨bsz, o, hi, rfl⟩ | ⟨rfl, rfl⟩ |
      ⟨n, rfl, -, ha, rfl⟩ | ⟨rfl, ha, rfl⟩
    · refine .inl ⟨cause, ?_, rfl⟩
      rcases hcause with ⟨rfl, v, rfl, hv⟩ | ⟨rfl, n, rfl, hn⟩ | ⟨rfl, hi, ha⟩
      · simp [rejectionCause, hv]
      · exact absurd (nbits_le_of_decode c n hd) hn
      · exact (rejectionCause_eq_hashErr _ _).2 ⟨i, rfl, hi, (accepts_eq_false_iff _).1 ha⟩
    · exact .inr ⟨rfl, rfl⟩
    · exact .inr ⟨by simp [rejectionCause, hv], rfl⟩
    · exact .inr ⟨rejectionCause_cipher _ i bsz hi, rfl⟩
    · exact .inr ⟨rfl, rfl⟩
    · exact .inr ⟨by simp [rejectionCause, ha], rfl⟩
    · exact .inr ⟨by simp [rejectionCause, ha], rfl⟩

@[simp] theorem status_acknowledge_sticky (st : Status) (v : Word) (d : Cause) :
    (st.acknowledge v).sticky d = (st.sticky d && !v.getLsbD d.code) := by
  cases d <;> rfl

@[simp] theorem status_reset_sticky (d : Cause) : Status.reset.sticky d = false := by
  cases d <;> rfl

/-- A four-byte write of a writable register other than CMD takes effect and completes. -/
theorem step_registerWrite (s : State) (rest : List Input) (r : Reg) (v : Word) (hw : r.writable = true)
    (hr : r ≠ .cmd) (h : s.pending = .access (.write r.offset 4 v) :: rest) :
    step s = .next (respond (writeReg { s with pending := rest } r v) .done) := by
  rw [step_cons s _ rest h]
  simp only [performInput, performAccess, (checkAccess_write _ r v).2 ⟨rfl, hw⟩]

/-- A register write touches STATUS only when STATUS is the register written. -/
theorem writeReg_status (s : State) (r : Reg) (v : Word) (hr : r ≠ .status) :
    (writeReg s r v).status = s.status := by
  cases r with
  | status => exact absurd rfl hr
  | _ => rfl

/-- The four things that a step with an input can do to STATUS: run a command, acknowledge errors, reset, or nothing. -/
theorem step_status_inv (s t : State) (inp : Input) (rest : List Input) (hp : s.pending = inp :: rest)
    (h : step s = .next t) :
    (∃ c, inp = commandWrite c ∧
      ((∃ cause, rejectionCause s.status.hstate (decode c) = some cause ∧ t.status = s.status.reject cause) ∨
       (rejectionCause s.status.hstate (decode c) = none ∧ t.status = s.status.hashDone t.status.hstate))) ∨
    (∃ v, inp = .access (.write 0x04 4 v) ∧ t.status = s.status.acknowledge v) ∨
    (inp.resets = true ∧ t.status = Status.reset) ∨
    ((∀ c, inp ≠ commandWrite c) ∧ t.status = s.status) := by
  rcases step_inv s t inp rest hp h with ⟨a, f, rfl, hf, rfl⟩ | ⟨r, v, rfl, -, rfl⟩ | ⟨r, v, rfl, hw, hr, rfl⟩ |
    ⟨c, why, rfl, hd, rfl⟩ | ⟨c, i, u, rfl, hd, hu, rfl⟩ | ⟨rfl, rfl⟩ | ⟨c, rfl, rfl⟩
  · refine .inr (.inr (.inr ⟨fun c hc => ?_, rfl⟩))
    cases hc
    simp [(checkAccess_cmd _ c).2 rfl] at hf
  · exact .inr (.inr (.inr ⟨fun c hc => by simp [commandWrite] at hc, rfl⟩))
  · by_cases hs : r = .status
    · subst hs
      exact .inr (.inl ⟨v, rfl, rfl⟩)
    · refine .inr (.inr (.inr ⟨fun c hc => ?_, by rw [respond_status, writeReg_status _ r v hs]⟩))
      have hcheck := (checkAccess_write (.write r.offset 4 v) r v).2 ⟨rfl, hw⟩
      injection hc with hc
      rw [(checkAccess_cmd _ c).2 hc] at hcheck
      cases hcheck
      exact hr rfl
  · exact .inl ⟨c, rfl, .inl ⟨.cmdErr, by simp [hd, rejectionCause], rfl⟩⟩
  · exact .inl ⟨c, rfl, runCommand_status c { s with pending := rest } u (by simp [runCommand, hd, hu])⟩
  · exact .inr (.inr (.inl ⟨rfl, rfl⟩))
  · exact .inr (.inr (.inl ⟨rfl, rfl⟩))

/-! ## The sticky flags and LAST_FAIL -/

/-- A CMD write leaves in LAST_FAIL whether the command was rejected (R23). -/
theorem step_command_lastFail (s t : State) (rest : List Input) (c : Word) (hp : s.pending = commandWrite c :: rest)
    (h : step s = .next t) : t.status.lastFail = (rejectionCause s.status.hstate (decode c)).isSome := by
  rcases step_status_inv s t _ rest hp h with ⟨c', hc, hst⟩ | ⟨v, hv, -⟩ | ⟨hr, -⟩ | ⟨hne, -⟩
  · cases hc
    rcases hst with ⟨cause, hcause, hst⟩ | ⟨hnone, hst⟩
    · rw [hst, hcause, status_reject_lastFail, Option.isSome_some]
    · rw [hst, hnone, status_hashDone_lastFail, Option.isSome_none]
  · simp [commandWrite] at hv
  · cases hr
  · exact absurd rfl (hne c)

/-- The life of a sticky flag (R24 to R26): a rejection for its cause sets it, and nothing else does; only reset, or a
STATUS write with its bit set, clears it. -/
theorem step_sticky (s t : State) (inp : Input) (rest : List Input) (hp : s.pending = inp :: rest)
    (h : step s = .next t) (d : Cause) :
    (∀ c, inp = commandWrite c → rejectionCause s.status.hstate (decode c) = some d → t.status.sticky d = true) ∧
    (s.status.sticky d = true → t.status.sticky d = false →
      inp.resets = true ∨ ∃ v : Word, inp = .access (.write 0x04 4 v) ∧ v.getLsbD d.code = true) ∧
    (s.status.sticky d = false → t.status.sticky d = true →
      ∃ c, inp = commandWrite c ∧ rejectionCause s.status.hstate (decode c) = some d) := by
  rcases step_status_inv s t inp rest hp h with ⟨c, rfl, hst⟩ | ⟨v, rfl, hst⟩ | ⟨hr, hst⟩ | ⟨hne, hst⟩
  · have hsticky : t.status.sticky d =
        (s.status.sticky d || decide (rejectionCause s.status.hstate (decode c) = some d)) := by
      rcases hst with ⟨cause, hcause, hst⟩ | ⟨hnone, hst⟩
      · simp [hst, hcause]
      · rw [hst]
        simp [hnone]
    refine ⟨fun c' hc hd => ?_, fun hs ht => ?_, fun hs ht => ⟨c, rfl, ?_⟩⟩
    · cases hc
      simp [hsticky, hd]
    · simp [hsticky, hs] at ht
    · simpa [hsticky, hs] using ht
  · have hsticky : t.status.sticky d = (s.status.sticky d && !v.getLsbD d.code) := by
      rw [hst, status_acknowledge_sticky]
    refine ⟨fun c hc => by simp [commandWrite] at hc, fun hs ht => .inr ⟨v, rfl, ?_⟩, fun hs ht => ?_⟩
    · simpa [hsticky, hs] using ht
    · simp [hsticky, hs] at ht
  · refine ⟨fun c hc => ?_, fun _ _ => .inl hr, fun _ ht => ?_⟩
    · subst hc
      cases hr
    · simp [hst] at ht
  · refine ⟨fun c hc => absurd hc (hne c), fun hs ht => ?_, fun hs ht => ?_⟩ <;> simp [hst, hs] at ht

/-- Settles O51: the life of a sticky flag, for CMD_ERR, whose cause is an illegal word. -/
theorem cmdErrIsSetAndClearedOnlyAsStated : Obligations.CmdErrIsSetAndClearedOnlyAsStated := by
  intro s t inp rest hp h
  obtain ⟨hset, hclear, honly⟩ := step_sticky s t inp rest hp h .cmdErr
  refine ⟨fun c why hc hd => hset c hc ((rejectionCause_eq_cmdErr _ _).2 ⟨why, hd⟩), hclear, fun hs ht => ?_⟩
  obtain ⟨c, hc, hcause⟩ := honly hs ht
  obtain ⟨why, hd⟩ := (rejectionCause_eq_cmdErr _ _).1 hcause
  exact ⟨c, why, hc, hd⟩

/-- Settles O52: the life of a sticky flag, for CFG_ERR, whose cause is a SET_ROUNDS outside [9, 22]. -/
theorem cfgErrIsSetAndClearedOnlyAsStated : Obligations.CfgErrIsSetAndClearedOnlyAsStated := by
  intro s t inp rest hp h
  obtain ⟨hset, hclear, honly⟩ := step_sticky s t inp rest hp h .cfgErr
  refine ⟨fun c v hc hd hv => hset c hc ((rejectionCause_eq_cfgErr _ _).2 ⟨v, hd, hv⟩), hclear, fun hs ht => ?_⟩
  obtain ⟨c, hc, hcause⟩ := honly hs ht
  obtain ⟨v, hd, hv⟩ := (rejectionCause_eq_cfgErr _ _).1 hcause
  exact ⟨c, v, hc, hd, hv⟩

/-- Settles O53: the life of a sticky flag, for HASH_ERR, whose cause is a hash command in IDLE or FINAL. -/
theorem hashErrIsSetAndClearedOnlyAsStated : Obligations.HashErrIsSetAndClearedOnlyAsStated := by
  intro s t inp rest hp h
  obtain ⟨hset, hclear, honly⟩ := step_sticky s t inp rest hp h .hashErr
  refine ⟨fun c i hc hd hi hs => hset c hc ((rejectionCause_eq_hashErr _ _).2 ⟨i, hd, hi, hs⟩), hclear,
    fun hs ht => ?_⟩
  obtain ⟨c, hc, hcause⟩ := honly hs ht
  obtain ⟨i, hd, hi, hstate⟩ := (rejectionCause_eq_hashErr _ _).1 hcause
  exact ⟨c, i, hc, hd, hi, hstate⟩

/-- A command is rejected exactly under one of the three causes of R240. -/
theorem rejectionCause_isSome (hs : HState) (d : Except Illegal Instr) :
    (rejectionCause hs d).isSome = true ↔
      (∃ why, d = .error why) ∨ (∃ v, d = .ok (.setRounds v) ∧ (v.toNat < 9 ∨ 22 < v.toNat)) ∨
        ((d = .ok .hashFinal ∨ ∃ n, d = .ok (.hashUpdate n)) ∧ (hs = .idle ∨ hs = .final)) := by
  rcases d with why | i
  · simp [rejectionCause]
  · cases i <;> simp [rejectionCause, roundvalLegal_eq_false_iff, accepts_eq_false_iff]

/-- Settles O54: LAST_FAIL is whether the command was rejected, and no input but a command or a reset writes it. -/
theorem lastFailTellsOfTheLastCommand : Obligations.LastFailTellsOfTheLastCommand := by
  intro s t inp rest hp h
  constructor
  · rintro c rfl
    rw [step_command_lastFail s t rest c hp h]
    exact rejectionCause_isSome _ _
  · intro hne hr
    rcases step_status_inv s t inp rest hp h with ⟨c, hc, -⟩ | ⟨v, -, hst⟩ | ⟨hr', -⟩ | ⟨-, hst⟩
    · exact absurd hc (hne c)
    · rw [hst, status_acknowledge_lastFail]
    · rw [hr] at hr'
      cases hr'
    · rw [hst]

/-! ## A STATUS write, and the reset values -/

/-- Settles O11: the STATUS write is an acknowledgement, which clears the selected flags. -/
theorem statusWriteClearsTheSelectedFlags : Obligations.StatusWriteClearsTheSelectedFlags := by
  intro s rest v hp
  have hclear : ∀ flag bit : Bool, (flag && !bit) = if bit then false else flag := by decide
  rw [step_registerWrite s rest .status v rfl (by decide) hp]
  simp only [writeReg, respond, Status.acknowledge, hclear]

/-- `ROUNDS_RESET` lies in [9, 22], whatever it is (R8, R42). -/
theorem roundsReset_legal : 9 ≤ Config.roundsReset.toNat ∧ Config.roundsReset.toNat ≤ 22 := by
  have hlt : Config.roundsResetFrom9.val < 14 := Config.roundsResetFrom9.isLt
  have hval : Config.roundsReset.toNat = (9 + Config.roundsResetFrom9.val) % 2 ^ 5 := BitVec.toNat_ofNat _ _
  omega

@[simp] theorem zero4_get (i : Fin 4) : zero4.get i = 0 := by
  revert i
  decide

@[simp] theorem zero8_get (j : Fin 8) : zero8.get j = 0 := by
  revert j
  decide

/-- Settles O19: the table of R42, read off State.reset. -/
theorem resetValuesAreThoseOfTheTable : Obligations.ResetValuesAreThoseOfTheTable := by
  obtain ⟨hmin, hmax⟩ := roundsReset_legal
  exact ⟨rfl, rfl, rfl, rfl, rfl, rfl, rfl, hmin, hmax, fun i => ⟨zero4_get i, zero4_get i, zero4_get i, zero4_get i⟩,
    rfl, rfl, zero8_get, rfl, rfl⟩

end Sys2Proof.Machine
end

