-- ==== Sys2Proof/Proofs/Memory.lean ====
section
/-! The register window and the byte views (20_memory.md): which accesses R63 refuses and what the host gets for the
others, what a read returns (R61), and the order of key, digest and message bytes (R65, R67, R68). -/

namespace Sys2Proof.Machine

/-! ## Which accesses are bus errors -/

/-- The offsets at which a register stands: the multiples of 4 in the window that are not reserved (R20, R36). -/
theorem exists_reg_offset_iff (off : Int) :
    (∃ r : Reg, off = (r.offset : Int)) ↔
      off % 4 = 0 ∧ 0x00 ≤ off ∧ off ≤ 0x7F ∧ off ≠ 0x0C ∧ off ≠ 0x58 ∧ off ≠ 0x5C := by
  constructor
  · rintro ⟨r, rfl⟩
    cases r <;> simp only [Reg.offset] <;> omega
  · rintro ⟨halign, hmin, hmax, h12, h88, h92⟩
    have hwords : ∀ k : Fin 32, k ≠ 3 → k ≠ 22 → k ≠ 23 → (regAtWord k.val).isSome = true := by decide
    have hsome := hwords ⟨(off / 4).toNat, by omega⟩ (by simp [Fin.ext_iff]; omega)
      (by simp [Fin.ext_iff]; omega) (by simp [Fin.ext_iff]; omega)
    obtain ⟨r, hr⟩ := Option.isSome_iff_exists.1 hsome
    exact ⟨r, (regAt_eq_some off r).1 (by rw [regAt, if_pos ⟨hmin, halign⟩, hr])⟩

/-- CMD, at offset 0x00, is the only register that may not be read (R63, condition 5). -/
theorem readable_iff_offset (r : Reg) : r.readable = true ↔ r.offset ≠ 0x00 := by
  cases r <;> simp [Reg.readable, Reg.offset]

/-- ROUNDS, DOUT and H, by their offsets, are the registers that may not be written (R63, condition 6). -/
theorem writable_iff_offset (r : Reg) :
    r.writable = true ↔
      ¬(r.offset = 0x08 ∨ (0x40 ≤ r.offset ∧ r.offset < 0x50) ∨ (0x60 ≤ r.offset ∧ r.offset < 0x80)) := by
  cases r <;> simp [Reg.writable, Reg.offset] <;> omega

/-- The six conditions of R63: width, alignment, outside the window, reserved, a read of CMD, a write of a read-only
register. -/
def Access.breaksRule (a : Access) : Prop :=
  a.width ≠ 4 ∨ a.offset % 4 ≠ 0 ∨ a.offset < 0x00 ∨ 0x7F < a.offset ∨
  a.offset = 0x0C ∨ a.offset = 0x58 ∨ a.offset = 0x5C ∨
  (a.isRead = true ∧ a.offset = 0x00) ∨
  (a.isRead = false ∧ (a.offset = 0x08 ∨ (0x40 ≤ a.offset ∧ a.offset < 0x50) ∨ (0x60 ≤ a.offset ∧ a.offset < 0x80)))

/-- An access breaks no condition exactly when it is four bytes wide and stands at a register that allows it. -/
theorem not_breaksRule_iff (a : Access) :
    ¬a.breaksRule ↔ a.width = 4 ∧ ∃ r : Reg, a.offset = (r.offset : Int) ∧
      (if a.isRead then r.readable else r.writable) = true := by
  unfold Access.breaksRule
  cases a.isRead
  case' true => simp only [reduceCtorEq, true_and, false_and, or_false, if_true, readable_iff_offset]
  case' false =>
    simp only [true_and, false_and, false_or, Bool.false_eq_true, if_false, writable_iff_offset]
  all_goals
    constructor
    · intro h
      obtain ⟨r, hr⟩ := (exists_reg_offset_iff a.offset).2 (by omega)
      exact ⟨by omega, r, hr, by omega⟩
    · rintro ⟨hwidth, r, hr, hallowed⟩
      have hmapped := (exists_reg_offset_iff a.offset).1 ⟨r, hr⟩
      omega

/-- R63: the port lets an access through exactly when none of the six conditions holds. -/
theorem checkAccess_ok_iff (a : Access) : (∃ ra, checkAccess a = .ok ra) ↔ ¬a.breaksRule := by
  rw [not_breaksRule_iff]
  cases a with
  | read off width =>
    constructor
    · rintro ⟨⟨r⟩ | ⟨r, v⟩, h⟩
      · obtain ⟨ha, hr⟩ := (checkAccess_read _ r).1 h
        cases ha
        exact ⟨rfl, r, rfl, hr⟩
      · cases ((checkAccess_write _ r v).1 h).1
    · rintro ⟨hwidth, r, hoff, hr⟩
      obtain rfl : width = 4 := hwidth
      obtain rfl : off = r.offset := hoff
      exact ⟨.read r, (checkAccess_read _ r).2 ⟨rfl, hr⟩⟩
  | write off width v =>
    constructor
    · rintro ⟨⟨r⟩ | ⟨r, v'⟩, h⟩
      · cases ((checkAccess_read _ r).1 h).1
      · obtain ⟨ha, hr⟩ := (checkAccess_write _ r v').1 h
        cases ha
        exact ⟨rfl, r, rfl, hr⟩
    · rintro ⟨hwidth, r, hoff, hr⟩
      obtain rfl : width = 4 := hwidth
      obtain rfl : off = r.offset := hoff
      exact ⟨.write r v, (checkAccess_write _ r v).2 ⟨rfl, hr⟩⟩

/-- The bus error names the offset of the access that raised it (R241). -/
theorem checkAccess_error_offset (a : Access) (f : Fault) (h : checkAccess a = .error f) :
    f = .busError a.offset := by
  cases a <;>
  · simp only [checkAccess] at h
    split at h
    · split at h <;> cases h
      rfl
    · cases h
      rfl

/-! ## What the host gets for an access -/

@[simp] theorem writeReg_responses (s : State) (r : Reg) (v : Word) : (writeReg s r v).responses = s.responses := by
  cases r <;> rfl

/-- A command gives the host no answer of its own; the port answers for it once it has ended (R262). -/
theorem runCommand_responses (c : Word) (s t : State) (h : runCommand c s = .next t) : t.responses = s.responses := by
  unfold runCommand at h
  split at h
  · obtain ⟨-, hresp, -⟩ := exec_frame _ s t h
    exact hresp
  · cases h
    exact reject_responses s .cmdErr

/-- An access ends in one of two ways: it is a bus error and the core is as it was, or it breaks no condition of R63 and
its one answer is no error. -/
theorem performAccess_response (a : Access) (s t : State) (h : performAccess a s = .next t) :
    (a.breaksRule ∧ t = respond s (.error (.busError a.offset))) ∨
    (¬a.breaksRule ∧ ∃ answer : Response, (∀ f, answer ≠ .error f) ∧ t.responses = answer :: s.responses) := by
  rcases performAccess_inv a s t h with ⟨f, hf, rfl⟩ | ⟨r, v, hr, -, rfl⟩ | ⟨r, v, -, hw, rfl⟩ | ⟨c, hc, u, hu, rfl⟩
  · refine .inl ⟨by_contra fun hok => ?_, by rw [checkAccess_error_offset a f hf]⟩
    obtain ⟨ra, hra⟩ := (checkAccess_ok_iff a).2 hok
    rw [hf] at hra
    cases hra
  · exact .inr ⟨(checkAccess_ok_iff a).1 ⟨_, hr⟩, .data v, by simp, respond_responses s _⟩
  · exact .inr ⟨(checkAccess_ok_iff a).1 ⟨_, hw⟩, .done, by simp, by simp⟩
  · exact .inr ⟨(checkAccess_ok_iff a).1 ⟨_, hc⟩, .done, by simp, by simp [runCommand_responses c s u hu]⟩

/-- Settles O12: the two ways an access can end, told apart by the six conditions. -/
theorem busErrorExactlyUnderTheSixConditions : Obligations.BusErrorExactlyUnderTheSixConditions := by
  intro s t rest a hp h
  rw [step_cons s _ rest hp] at h
  rcases performAccess_response a _ t h with ⟨hbad, ht⟩ | ⟨hok, answer, hne, hresp⟩
  · exact ⟨fun _ => ht, fun hok => absurd hbad hok⟩
  · refine ⟨fun hbad => absurd hbad hok, fun _ => ⟨by simp [hresp], fun f hf => hne f ?_⟩⟩
    simpa [hresp] using hf

/-! ## What a read returns -/

/-- A four-byte read of a register that has a value gives the host that value, and does nothing else (R61). -/
theorem step_registerRead (s : State) (rest : List Input) (r : Reg) (v : Word) (hv : readReg s r = some v)
    (h : s.pending = .access (.read r.offset 4) :: rest) :
    step s = .next { s with pending := rest, responses := .data v :: s.responses } := by
  have hreadable : r.readable = true := by
    cases r with
    | cmd => cases hv
    | _ => rfl
  have hv' : readReg { s with pending := rest } r = some v := hv
  rw [step_cons s _ rest h]
  simp only [performInput, performAccess, (checkAccess_read _ r).2 ⟨rfl, hreadable⟩, hv', respond]

/-- One bit of a word, as a field one bit wide. -/
theorem ofBool_getLsbD_eq_extractLsb' (v : Word) (k : Nat) : BitVec.ofBool (v.getLsbD k) = v.extractLsb' k 1 := by
  apply BitVec.eq_of_getLsbD_eq
  intro i hi
  obtain rfl : i = 0 := by omega
  simp

/-- A word is its fields of R22 joined. -/
theorem append_statusFields (v : Word) :
    (v.extractLsb' 6 26 ++ v.extractLsb' 4 2 ++ BitVec.ofBool (v.getLsbD 3) ++ BitVec.ofBool (v.getLsbD 2) ++
      BitVec.ofBool (v.getLsbD 1) ++ BitVec.ofBool (v.getLsbD 0) : BitVec 32) = v := by
  simp only [ofBool_getLsbD_eq_extractLsb']
  rw [BitVec.extractLsb'_append_extractLsb'_eq_extractLsb' (by rfl),
    BitVec.extractLsb'_append_extractLsb'_eq_extractLsb' (by rfl),
    BitVec.extractLsb'_append_extractLsb'_eq_extractLsb' (by rfl),
    BitVec.extractLsb'_append_extractLsb'_eq_extractLsb' (by rfl),
    BitVec.extractLsb'_append_extractLsb'_eq_extractLsb' (by rfl)]
  exact BitVec.extractLsb'_eq_self

/-- Settles O9: each clause is `step_registerRead` at its register; the fields of STATUS fix its word. -/
theorem readReturnsTheRegister : Obligations.ReadReturnsTheRegister := by
  intro s rest
  refine ⟨?_, step_registerRead s rest .rounds _ rfl, fun i => step_registerRead s rest (.key i) _ rfl,
    fun i => step_registerRead s rest (.iv i) _ rfl, fun i => step_registerRead s rest (.din i) _ rfl,
    fun i => step_registerRead s rest (.dout i) _ rfl, step_registerRead s rest .msglenLo _ rfl,
    step_registerRead s rest .msglenHi _ rfl, fun j => step_registerRead s rest (.h j) _ rfl⟩
  rintro v ⟨hlast, hcmd, hcfg, hhash, hstate, hzero⟩
  have hcode : v.extractLsb' 4 2 = s.status.hstate.code := by
    rw [hstate]
    cases s.status.hstate <;> rfl
  have hword : s.status.word = v := by
    rw [Status.word, ← hzero, ← hcode, ← hlast, ← hcmd, ← hcfg, ← hhash, append_statusFields]
  exact step_registerRead s rest .status v (congrArg some hword)

/-! ## Byte and bit order -/

/-- A word is `be32` of its bytes, most significant first (R12). -/
theorem be32_byteLanes (w : Word) : be32 (byteLane w 3) (byteLane w 2) (byteLane w 1) (byteLane w 0) = w :=
  append_byteLanes w

/-- Settles O17: the byte views are byte lanes 3 down to 0, and `be32` joins them in that order. -/
theorem keyAndDigestBytesAreBigEndian : Obligations.KeyAndDigestBytesAreBigEndian := by
  intro s
  exact ⟨fun i => be32_byteLanes (s.key.get i), fun _ _ => rfl, fun _ _ => rfl, fun j => be32_byteLanes (s.h.get j)⟩

/-- Bit p of the string of a block is bit 127 - p of its value (R67). -/
theorem bitsOf_getElem?_of_lt (v : BitVec 128) (p : Nat) (hp : p < 128) :
    (bitsOf v)[p]? = some (v.getLsbD (127 - p)) := by
  rw [bitsOf_getElem?, if_pos hp, BitVec.getMsbD_eq_getLsbD]
  simp [hp]

/-- Bit 32i + q of the string of four words is bit 31 - q of word i: words and their bits come in the same order. -/
theorem bitsOf_cat_getElem? (x : Words4) (i : Fin 4) (q : Nat) (hq : q < 32) :
    (bitsOf x.cat)[32 * i.val + q]? = some ((x.get i).getLsbD (31 - q)) := by
  rw [bitsOf_getElem?_of_lt _ _ (by omega), getLsbD_cat, Option.some_inj]
  match i with
  | 0 =>
    rw [if_neg (by omega), if_neg (by omega), if_neg (by omega)]
    exact congrArg x.w0.getLsbD (by omega)
  | 1 =>
    rw [if_neg (by omega), if_neg (by omega), if_pos (by omega)]
    exact congrArg x.w1.getLsbD (by omega)
  | 2 =>
    rw [if_neg (by omega), if_pos (by omega)]
    exact congrArg x.w2.getLsbD (by omega)
  | 3 =>
    rw [if_pos (by omega)]
    exact congrArg x.w3.getLsbD (by omega)

/-- Settles O18: the three readings of one position, by block, by word and by byte lane. -/
theorem messageBitsAreMsbFirst : Obligations.MessageBitsAreMsbFirst := by
  intro s
  refine ⟨fun p => bitsOf_getElem?_of_lt s.din.cat p p.isLt,
    fun i q => bitsOf_cat_getElem? s.din i q q.isLt, fun i j q => ?_⟩
  have hpos : 8 * (4 * i.val + j.val) + q.val = 32 * i.val + (8 * j.val + q.val) := by omega
  have hbit : 31 - (8 * j.val + q.val) = 8 * (3 - j.val) + (7 - q.val) := by omega
  have hlane : 7 - q.val < 8 := by omega
  rw [hpos, bitsOf_cat_getElem? s.din i _ (by omega), hbit, BitVec.getLsbD_extractLsb']
  simp [hlane]

end Sys2Proof.Machine
end

