-- ==== Sys2Proof/Proofs/Encoding.lean ====
section
/-! Command words (30_encoding.md): which words a format has and what the decoder makes of them (R81 to R88), the match
table (R86), the illegal words (R89), and the pseudo-instructions (R92). -/

namespace Sys2Proof.Machine

/-! ## The words of each format, by their fields -/

theorem encodeZ_eq_iff (opc : BitVec 8) (c : Word) :
    encodeZ opc = c ↔ opcField c = opc ∧ c.extractLsb' 0 24 = 0 := by
  have hc := c.isLt
  simp only [← BitVec.toNat_inj, encodeZ_toNat, opcField_toNat, BitVec.extractLsb'_toNat, Nat.shiftRight_eq_div_pow,
    BitVec.ofNat_eq_ofNat, BitVec.toNat_ofNat]
  omega

theorem encodeI_eq_iff (opc imm : BitVec 8) (c : Word) :
    encodeI opc imm = c ↔ opcField c = opc ∧ c.extractLsb' 8 16 = 0 ∧ immField c = imm := by
  have hc := c.isLt
  have himm := imm.isLt
  simp only [← BitVec.toNat_inj, encodeI_toNat, opcField_toNat, immField_toNat, BitVec.extractLsb'_toNat,
    Nat.shiftRight_eq_div_pow, BitVec.ofNat_eq_ofNat, BitVec.toNat_ofNat]
  omega

theorem encodeC_eq_iff (mode : BitVec 3) (dir : Bool) (bsz : BlockSize) (c : Word) :
    encodeC mode (BitVec.ofBool dir) bsz = c ↔
      opcField c = 0x10 ∧ c.extractLsb' 5 19 = 0 ∧ bszField c = bsz ∧ dirField c = dir ∧ modeField c = mode := by
  have hc := c.isLt
  have hmode := mode.isLt
  rw [bszField_eq, dirField_eq]
  cases dir <;> cases bsz <;>
  · simp only [← BitVec.toNat_inj, encodeC_toNat, opcField_toNat, modeField_toNat, BitVec.extractLsb'_toNat,
      Nat.shiftRight_eq_div_pow, BlockSize.bit, BitVec.ofNat_eq_ofNat, BitVec.toNat_ofNat, BitVec.toNat_ofBool,
      decide_eq_true_eq, decide_eq_false_iff_not, Bool.toNat_true, Bool.toNat_false, ite_eq_left_iff,
      ite_eq_right_iff, reduceCtorEq, imp_false, not_not]
    omega

/-- A mask that is all ones on a field keeps the field. -/
theorem extractLsb'_and_of_allOnes (c mask : Word) (start len : Nat)
    (h : mask.extractLsb' start len = BitVec.allOnes len) :
    (c &&& mask).extractLsb' start len = c.extractLsb' start len := by
  rw [BitVec.extractLsb'_and, h, BitVec.and_allOnes]

/-- The words of a format I row of R86: the immediate is the free field. -/
theorem encodeI_immField_of_match (opc : BitVec 8) (c : Word) (h : c &&& 0xFFFFFF00 = encodeI opc 0) :
    encodeI opc (immField c) = c := by
  obtain ⟨hopc, hzero, -⟩ := (encodeI_eq_iff opc 0 _).1 h.symm
  rw [opcField, extractLsb'_and_of_allOnes _ _ _ _ (by decide)] at hopc
  rw [extractLsb'_and_of_allOnes _ _ _ _ (by decide)] at hzero
  exact (encodeI_eq_iff _ _ _).2 ⟨hopc, hzero, rfl⟩

/-- The words of a format C row of R86: BSZ is the free field. -/
theorem encodeC_bszField_of_match (mode : BitVec 3) (dir : Bool) (c : Word)
    (h : c &&& 0xFFFFFFEF = encodeC mode (BitVec.ofBool dir) .b64) :
    encodeC mode (BitVec.ofBool dir) (bszField c) = c := by
  obtain ⟨hopc, hzero, -, hdir, hmode⟩ := (encodeC_eq_iff mode dir .b64 _).1 h.symm
  rw [opcField, extractLsb'_and_of_allOnes _ _ _ _ (by decide)] at hopc
  rw [extractLsb'_and_of_allOnes _ _ _ _ (by decide)] at hzero
  rw [modeField, extractLsb'_and_of_allOnes _ _ _ _ (by decide)] at hmode
  have hdir' : dirField c = dir := by simpa [dirField] using hdir
  exact (encodeC_eq_iff _ _ _ _).2 ⟨hopc, hzero, rfl, hdir', hmode⟩

/-- The BSZ bit is bit 4 of the word (R82). -/
theorem bszField_bit (c : Word) : (bszField c).bit = c.extractLsb' 4 1 := by
  rw [← ofBool_getLsbD_eq_extractLsb', bszField]
  cases c.getLsbD 4 <;> rfl

/-! ## The decoder: its dispatch on OPC, what each format decodes to, and which words it refuses -/

theorem decode_of_opc_setRounds (c : Word) (h : opcField c = 0x01) : decode c = decodeSetRounds c := by
  simp [decode, h]

theorem decode_of_opc_cipher (c : Word) (h : opcField c = 0x10) : decode c = decodeC c := by simp [decode, h]

theorem decode_of_opc_hashUpdate (c : Word) (h : opcField c = 0x21) : decode c = decodeHashUpdate c := by
  simp [decode, h]

/-- The decoder's seven ways: by one of the six OPC values, or none of them (R88). -/
theorem decode_dispatch (c : Word) :
    (opcField c = 0x00 ∧ decode c = decodeZ c .nop) ∨ (opcField c = 0x01 ∧ decode c = decodeSetRounds c) ∨
    (opcField c = 0x10 ∧ decode c = decodeC c) ∨ (opcField c = 0x20 ∧ decode c = decodeZ c .hashInit) ∨
    (opcField c = 0x21 ∧ decode c = decodeHashUpdate c) ∨ (opcField c = 0x22 ∧ decode c = decodeZ c .hashFinal) ∨
    (¬(opcField c = 0x00 ∨ opcField c = 0x01 ∨ opcField c = 0x10 ∨ opcField c = 0x20 ∨ opcField c = 0x21 ∨
        opcField c = 0x22) ∧ decode c = .error .opcode) := by
  unfold decode
  split_ifs <;> simp_all

theorem decodeZ_ok_iff (c : Word) (i j : Instr) : decodeZ c i = .ok j ↔ c.extractLsb' 0 24 = 0 ∧ j = i := by
  unfold decodeZ
  split <;> simp_all [eq_comm]

theorem decodeSetRounds_ok_iff (c : Word) (j : Instr) :
    decodeSetRounds c = .ok j ↔ c.extractLsb' 8 16 = 0 ∧ j = .setRounds (immField c) := by
  unfold decodeSetRounds
  split <;> simp_all [eq_comm]

theorem decodeC_ok_iff (c : Word) (j : Instr) :
    decodeC c = .ok j ↔
      c.extractLsb' 5 19 = 0 ∧ decodeCipher (modeField c) (dirField c) (bszField c) = .ok j := by
  unfold decodeC
  split <;> simp_all

theorem decodeHashUpdate_ok_iff (c : Word) (j : Instr) :
    decodeHashUpdate c = .ok j ↔
      c.extractLsb' 8 16 = 0 ∧ (immField c).toNat ≤ 128 ∧ j = .hashUpdate (immField c) := by
  unfold decodeHashUpdate
  split_ifs <;> simp_all [eq_comm]

/-- What the cipher decoder makes of its fields: a cipher command of that block size, whose word has those fields. -/
theorem decodeCipher_ok_inv (mode : BitVec 3) (dir : Bool) (bsz : BlockSize) (i : Instr)
    (h : decodeCipher mode dir bsz = .ok i) :
    isCipher i bsz ∧ i.wf = true ∧ encode i = encodeC mode (BitVec.ofBool dir) bsz := by
  have hmode : BitVec.ofNat 3 mode.toNat = mode := by simp
  unfold decodeCipher at h
  split at h
  all_goals cases h
  all_goals
    rename_i hval
    rw [← hmode, hval]
    exact ⟨by simp [isCipher], rfl, rfl⟩

theorem decodeZ_error_iff (c : Word) (i : Instr) :
    (∃ why, decodeZ c i = .error why) ↔ c.extractLsb' 0 24 ≠ 0 := by
  unfold decodeZ
  split <;> simp_all

theorem decodeSetRounds_error_iff (c : Word) :
    (∃ why, decodeSetRounds c = .error why) ↔ c.extractLsb' 8 16 ≠ 0 := by
  unfold decodeSetRounds
  split <;> simp_all

theorem decodeHashUpdate_error_iff (c : Word) :
    (∃ why, decodeHashUpdate c = .error why) ↔ c.extractLsb' 8 16 ≠ 0 ∨ 128 < (immField c).toNat := by
  unfold decodeHashUpdate
  split_ifs <;> simp_all

/-- MODE 5, 6 and 7 are the illegal ones (R82). -/
theorem decodeCipher_error_iff (mode : BitVec 3) (dir : Bool) (bsz : BlockSize) :
    (∃ why, decodeCipher mode dir bsz = .error why) ↔ 5 ≤ mode.toNat := by
  unfold decodeCipher
  split
  case h_11 =>
    simp only [Except.error.injEq, exists_eq', true_iff]
    grind
  all_goals
    simp only [reduceCtorEq, exists_false, false_iff]
    omega

theorem decodeC_error_iff (c : Word) :
    (∃ why, decodeC c = .error why) ↔ c.extractLsb' 5 19 ≠ 0 ∨ 5 ≤ (modeField c).toNat := by
  rw [← decodeCipher_error_iff _ (dirField c) (bszField c)]
  unfold decodeC
  split <;> simp_all

/-! ## Decode and encode -/

/-- A legal word is the word of the one command it decodes to. -/
theorem encode_of_decode (c : Word) (i : Instr) (h : decode c = .ok i) : i.wf = true ∧ encode i = c := by
  rcases decode_dispatch c with ⟨hopc, hd⟩ | ⟨hopc, hd⟩ | ⟨hopc, hd⟩ | ⟨hopc, hd⟩ | ⟨hopc, hd⟩ | ⟨hopc, hd⟩ | ⟨-, hd⟩
  all_goals rw [hd] at h
  case inl | inr.inr.inr.inl | inr.inr.inr.inr.inr.inl =>
    obtain ⟨hzero, rfl⟩ := (decodeZ_ok_iff c _ i).1 h
    exact ⟨rfl, (encodeZ_eq_iff _ c).2 ⟨hopc, hzero⟩⟩
  case inr.inl =>
    obtain ⟨hzero, rfl⟩ := (decodeSetRounds_ok_iff c i).1 h
    exact ⟨rfl, (encodeI_eq_iff _ _ c).2 ⟨hopc, hzero, rfl⟩⟩
  case inr.inr.inl =>
    obtain ⟨hzero, hcipher⟩ := (decodeC_ok_iff c i).1 h
    obtain ⟨-, hwf, hi⟩ := decodeCipher_ok_inv _ _ _ i hcipher
    exact ⟨hwf, hi.trans ((encodeC_eq_iff _ _ _ c).2 ⟨hopc, hzero, rfl, rfl, rfl⟩)⟩
  case inr.inr.inr.inr.inl =>
    obtain ⟨hzero, hnbits, rfl⟩ := (decodeHashUpdate_ok_iff c i).1 h
    exact ⟨decide_eq_true hnbits, (encodeI_eq_iff _ _ c).2 ⟨hopc, hzero, rfl⟩⟩
  case inr.inr.inr.inr.inr.inr => cases h

/-- A format C word is decoded by its three fields. -/
theorem decode_encodeC (mode : BitVec 3) (dir : Bool) (bsz : BlockSize) :
    decode (encodeC mode (BitVec.ofBool dir) bsz) = decodeCipher mode dir bsz := by
  obtain ⟨hopc, hzero, hbsz, hdir, hmode⟩ := (encodeC_eq_iff mode dir bsz _).1 rfl
  rw [decode_of_opc_cipher _ hopc, decodeC, if_pos hzero, hbsz, hdir, hmode]

/-- A well-formed command is what its word decodes to. -/
theorem decode_encode (i : Instr) (h : i.wf = true) : decode (encode i) = .ok i := by
  cases i with
  | nop => decide
  | setRounds v =>
    obtain ⟨hopc, hzero, himm⟩ := (encodeI_eq_iff 0x01 v _).1 rfl
    rw [encode, decode_of_opc_setRounds _ hopc, decodeSetRounds, if_pos hzero, himm]
  | ecbEnc bsz => exact decode_encodeC 0 false bsz
  | ecbDec bsz => exact decode_encodeC 0 true bsz
  | cbcEnc bsz => exact decode_encodeC 1 false bsz
  | cbcDec bsz => exact decode_encodeC 1 true bsz
  | cfbEnc bsz => exact decode_encodeC 2 false bsz
  | cfbDec bsz => exact decode_encodeC 2 true bsz
  | ofbEnc bsz => exact decode_encodeC 3 false bsz
  | ofbDec bsz => exact decode_encodeC 3 true bsz
  | ctrEnc bsz => exact decode_encodeC 4 false bsz
  | ctrDec bsz => exact decode_encodeC 4 true bsz
  | hashInit => decide
  | hashUpdate n =>
    obtain ⟨hopc, hzero, himm⟩ := (encodeI_eq_iff 0x21 n _).1 rfl
    rw [encode, decode_of_opc_hashUpdate _ hopc, decodeHashUpdate, if_pos hzero, himm, if_pos (of_decide_eq_true h)]
  | hashFinal => decide

/-! ## The match table -/

/-- Every command's word matches the row that its mnemonic names. -/
theorem encode_matches_row (i : Instr) : Laws.EncodingMatchesItsRow.Statement i := by
  cases i with
  | nop => exact Laws.EncodingMatchesItsRow.nop
  | setRounds v => exact Laws.EncodingMatchesItsRow.setRounds v
  | ecbEnc bsz => exact Laws.EncodingMatchesItsRow.ecbEnc bsz
  | ecbDec bsz => exact Laws.EncodingMatchesItsRow.ecbDec bsz
  | cbcEnc bsz => exact Laws.EncodingMatchesItsRow.cbcEnc bsz
  | cbcDec bsz => exact Laws.EncodingMatchesItsRow.cbcDec bsz
  | cfbEnc bsz => exact Laws.EncodingMatchesItsRow.cfbEnc bsz
  | cfbDec bsz => exact Laws.EncodingMatchesItsRow.cfbDec bsz
  | ofbEnc bsz => exact Laws.EncodingMatchesItsRow.ofbEnc bsz
  | ofbDec bsz => exact Laws.EncodingMatchesItsRow.ofbDec bsz
  | ctrEnc bsz => exact Laws.EncodingMatchesItsRow.ctrEnc bsz
  | ctrDec bsz => exact Laws.EncodingMatchesItsRow.ctrDec bsz
  | hashInit => exact Laws.EncodingMatchesItsRow.hashInit
  | hashUpdate n => exact Laws.EncodingMatchesItsRow.hashUpdate n
  | hashFinal => exact Laws.EncodingMatchesItsRow.hashFinal

/-- R86's table names each command once. -/
theorem row_eq_of_mnemonic_eq :
    ∀ r ∈ matchTable, ∀ r' ∈ matchTable, r.mnemonic = r'.mnemonic → r = r' := by decide

/-- Two rows that agree wherever both masks look are the same row. -/
theorem row_eq_of_patterns_agree :
    ∀ r ∈ matchTable, ∀ r' ∈ matchTable, r.pattern &&& r'.mask = r'.pattern &&& r.mask → r = r' := by decide

/-- No two rows match the same word (R86). -/
theorem row_eq_of_match (c : Word) (r r' : MatchRow) (hr : r ∈ matchTable) (hr' : r' ∈ matchTable)
    (h : c &&& r.mask = r.pattern) (h' : c &&& r'.mask = r'.pattern) : r = r' := by
  refine row_eq_of_patterns_agree r hr r' hr' ?_
  rw [← h, ← h', BitVec.and_assoc, BitVec.and_assoc, BitVec.and_comm r.mask]

theorem wf_hashUpdate (n : BitVec 8) : (Instr.hashUpdate n).wf = true ↔ n.toNat ≤ 128 := decide_eq_true_iff

/-- A legal word matches the row of its command, and a HASH_UPDATE word has an NBITS of at most 128. -/
theorem match_of_decode (c : Word) (i : Instr) (row : MatchRow) (hrow : row ∈ matchTable) (hd : decode c = .ok i)
    (hname : i.mnemonic = row.mnemonic) :
    c &&& row.mask = row.pattern ∧ (row.mnemonic = "HASH_UPDATE" → (immField c).toNat ≤ 128) := by
  obtain ⟨hwf, hc⟩ := encode_of_decode c i hd
  constructor
  · obtain ⟨row', hrow', hname', hmatch⟩ := encode_matches_row i
    rw [hc] at hmatch
    rwa [row_eq_of_mnemonic_eq row' hrow' row hrow (hname'.trans hname)] at hmatch
  · intro hupdate
    rw [← hname] at hupdate
    cases i with
    | hashUpdate n =>
      obtain ⟨-, -, himm⟩ := (encodeI_eq_iff _ n c).1 hc
      rw [himm]
      exact (wf_hashUpdate n).1 hwf
    | _ => simp [Instr.mnemonic] at hupdate

/-- The command of a row, with the free field read off the word. -/
theorem exists_encode_of_match (c : Word) (row : MatchRow) (hrow : row ∈ matchTable)
    (hmatch : c &&& row.mask = row.pattern) (hnbits : row.mnemonic = "HASH_UPDATE" → (immField c).toNat ≤ 128) :
    ∃ i : Instr, i.wf = true ∧ encode i = c ∧ i.mnemonic = row.mnemonic := by
  have hall : ∀ p : Word, c &&& 0xFFFFFFFF = p → p = c := fun p h => h.symm.trans BitVec.and_allOnes
  simp only [matchTable, List.mem_cons, List.not_mem_nil, or_false] at hrow
  rcases hrow with rfl | rfl | rfl | rfl | rfl | rfl | rfl | rfl | rfl | rfl | rfl | rfl | rfl | rfl | rfl
  · exact ⟨.nop, rfl, hall _ hmatch, rfl⟩
  · exact ⟨.setRounds (immField c), rfl, encodeI_immField_of_match 0x01 c hmatch, rfl⟩
  · exact ⟨.ecbEnc (bszField c), rfl, encodeC_bszField_of_match 0 false c hmatch, rfl⟩
  · exact ⟨.cbcEnc (bszField c), rfl, encodeC_bszField_of_match 1 false c hmatch, rfl⟩
  · exact ⟨.cfbEnc (bszField c), rfl, encodeC_bszField_of_match 2 false c hmatch, rfl⟩
  · exact ⟨.ofbEnc (bszField c), rfl, encodeC_bszField_of_match 3 false c hmatch, rfl⟩
  · exact ⟨.ctrEnc (bszField c), rfl, encodeC_bszField_of_match 4 false c hmatch, rfl⟩
  · exact ⟨.ecbDec (bszField c), rfl, encodeC_bszField_of_match 0 true c hmatch, rfl⟩
  · exact ⟨.cbcDec (bszField c), rfl, encodeC_bszField_of_match 1 true c hmatch, rfl⟩
  · exact ⟨.cfbDec (bszField c), rfl, encodeC_bszField_of_match 2 true c hmatch, rfl⟩
  · exact ⟨.ofbDec (bszField c), rfl, encodeC_bszField_of_match 3 true c hmatch, rfl⟩
  · exact ⟨.ctrDec (bszField c), rfl, encodeC_bszField_of_match 4 true c hmatch, rfl⟩
  · exact ⟨.hashInit, rfl, hall _ hmatch, rfl⟩
  · exact ⟨.hashUpdate (immField c), (wf_hashUpdate _).2 (hnbits rfl), encodeI_immField_of_match 0x21 c hmatch, rfl⟩
  · exact ⟨.hashFinal, rfl, hall _ hmatch, rfl⟩

/-- Settles O3: a legal word is the encoding of its command, whose row it matches, and a word that matches a row is the
encoding of that row's command with the free field read off the word. -/
theorem decodeFollowsTheMatchTable : Obligations.DecodeFollowsTheMatchTable := by
  refine ⟨fun c row hrow => ⟨?_, ?_⟩, fun c v h => ?_, fun c i hd hopc => ?_, row_eq_of_match⟩
  · rintro ⟨i, hd, hname⟩
    exact match_of_decode c i row hrow hd hname
  · rintro ⟨hmatch, hnbits⟩
    obtain ⟨i, hwf, rfl, hname⟩ := exists_encode_of_match c row hrow hmatch hnbits
    exact ⟨i, decode_encode i hwf, hname⟩
  · rcases h with hd | hd <;>
    · obtain ⟨-, hc⟩ := encode_of_decode c _ hd
      obtain ⟨-, -, himm⟩ := (encodeI_eq_iff _ v c).1 hc
      exact himm.symm
  · rw [decode_of_opc_cipher c hopc, decodeC_ok_iff] at hd
    obtain ⟨-, hcipher⟩ := hd
    obtain ⟨hi, -, -⟩ := decodeCipher_ok_inv _ _ _ i hcipher
    exact ⟨bszField c, bszField_bit c, hi⟩

/-! ## Illegal words -/

/-- A host write of an illegal word to CMD is rejected with CMD_ERR, and completes (R242, R245). -/
theorem step_illegalWord (s : State) (rest : List Input) (c : Word) (why : Illegal)
    (hp : s.pending = commandWrite c :: rest) (hd : decode c = .error why) :
    step s = .next (respond (reject { s with pending := rest } .cmdErr) .done) := by
  rw [step_command s rest c hp, runCommand, hd]
  rfl

/-- Settles O4: the defects of R89 are those of the format that OPC selects. -/
theorem illegalWordsAreRejectedWithCmdErr : Obligations.IllegalWordsAreRejectedWithCmdErr := by
  refine ⟨fun c => ?_, fun s rest c why hp hd => step_illegalWord s rest c why hp hd⟩
  rcases decode_dispatch c with ⟨hopc, hd⟩ | ⟨hopc, hd⟩ | ⟨hopc, hd⟩ | ⟨hopc, hd⟩ | ⟨hopc, hd⟩ | ⟨hopc, hd⟩ | ⟨hopc, hd⟩
  all_goals
    rw [opcField] at hopc
    rw [hd]
  case inr.inl => simp [hopc, decodeSetRounds_error_iff]
  case inr.inr.inl => simp [hopc, decodeC_error_iff, modeField]
  case inr.inr.inr.inr.inl => simp [hopc, decodeHashUpdate_error_iff, immField]
  case inr.inr.inr.inr.inr.inr => exact iff_of_true ⟨.opcode, rfl⟩ (.inl hopc)
  all_goals simp [hopc, decodeZ_error_iff]

/-! ## Host programs: a step takes one input, and a run of register writes -/

theorem run_succ_of_step (k : Nat) (s t : State) (h : step s = .next t) :
    Host.Core.run core (k + 1) s = Host.Core.run core k t := by
  have h' : core.step s = .next t := h
  simp only [Host.Core.run, h']

@[simp] theorem writeReg_pending (s : State) (r : Reg) (v : Word) : (writeReg s r v).pending = s.pending := by
  cases r <;> rfl

/-- Every command has a next state. -/
theorem exists_exec (i : Instr) (s : State) : ∃ t, exec i s = .next t := by
  cases i with
  | setRounds v =>
    simp only [exec, execSetRounds]
    split <;> exact ⟨_, rfl⟩
  | hashUpdate n =>
    simp only [exec, execHashUpdate]
    split <;> exact ⟨_, rfl⟩
  | _ => exact ⟨_, rfl⟩

/-- A CMD write has a next state, and leaves the inputs to come as they are. -/
theorem exists_runCommand (c : Word) (s : State) : ∃ t, runCommand c s = .next t ∧ t.pending = s.pending := by
  unfold runCommand
  split
  · rename_i i _
    obtain ⟨t, ht⟩ := exists_exec i s
    obtain ⟨hpending, -⟩ := exec_frame i s t ht
    exact ⟨t, ht, hpending⟩
  · exact ⟨_, rfl, rfl⟩

/-- An access has a next state, and leaves the inputs to come as they are. -/
theorem exists_performAccess (a : Access) (s : State) :
    ∃ t, performAccess a s = .next t ∧ t.pending = s.pending := by
  unfold performAccess
  split
  · exact ⟨_, rfl, rfl⟩
  · split <;> exact ⟨_, rfl, rfl⟩
  · rename_i c _
    obtain ⟨t, ht, hpending⟩ := exists_runCommand c s
    rw [ht]
    exact ⟨_, rfl, hpending⟩
  · exact ⟨_, rfl, writeReg_pending s _ _⟩

/-- A step takes exactly the first of the inputs to come (R73). -/
theorem step_takes_input (s : State) (inp : Input) (rest : List Input) (hp : s.pending = inp :: rest) :
    ∃ t, step s = .next t ∧ t.pending = rest := by
  rw [step_cons s inp rest hp]
  cases inp with
  | access a => exact exists_performAccess a _
  | reset => exact ⟨_, rfl, rfl⟩
  | resetDuringCommand c => exact ⟨_, rfl, rfl⟩

/-- After j steps the inputs from the j-th on are still to come. -/
theorem run_takes_inputs (j : Nat) (s : State) (hj : j ≤ s.pending.length) :
    ∃ t, Host.Core.run core j s = .next t ∧ t.pending = s.pending.drop j := by
  induction j generalizing s with
  | zero => exact ⟨s, rfl, rfl⟩
  | succ j ih =>
    cases hp : s.pending with
    | nil => simp [hp] at hj
    | cons inp rest =>
      obtain ⟨t, ht, hrest⟩ := step_takes_input s inp rest hp
      obtain ⟨u, hu, hdrop⟩ := ih t (by simpa [hp, hrest] using hj)
      exact ⟨u, by rw [run_succ_of_step j s t ht, hu], by rw [hdrop, hrest, List.drop_succ_cons]⟩

/-- A line loaded with nothing pending is all there is to come. -/
theorem loadProgram_line_pending (s : State) (line : AsmLine) (hp : s.pending = []) :
    (s.loadProgram [line]).pending = line.accesses.map .access := by
  simp [State.loadProgram, hp]

/-- The state after these register writes, each of them answered. -/
def storeAll (s : State) : List (Reg × Word) → State
  | [] => s
  | w :: ws => storeAll (respond (writeReg s w.1 w.2) .done) ws

/-- The accesses that write these values to these registers (R91). -/
def storeAccesses (ws : List (Reg × Word)) : List Access := ws.map fun w => writeAccess w.1 w.2

/-- A step that takes a register write. -/
theorem step_store (s : State) (r : Reg) (v : Word) (inputs : List Input) (hw : r.writable = true) (hr : r ≠ .cmd) :
    step { s with pending := .access (writeAccess r v) :: inputs } =
      .next { respond (writeReg s r v) .done with pending := inputs } := by
  rw [step_registerWrite _ inputs r v hw hr rfl]
  cases r <;> rfl

/-- Running register writes one after another. -/
theorem run_stores (ws : List (Reg × Word)) (s : State) (hw : ∀ w ∈ ws, w.1.writable = true ∧ w.1 ≠ .cmd) :
    Host.Core.run core ws.length { s with pending := (storeAccesses ws).map .access } =
      .next { storeAll s ws with pending := [] } := by
  induction ws generalizing s with
  | nil => rfl
  | cons w ws ih =>
    obtain ⟨⟨hwritable, hcmd⟩, hws⟩ := List.forall_mem_cons.1 hw
    refine (run_succ_of_step _ _ _ (step_store s w.1 w.2 _ hwritable hcmd)).trans ?_
    exact ih (respond (writeReg s w.1 w.2) .done) hws

theorem storeAll_pending (s : State) (ws : List (Reg × Word)) : (storeAll s ws).pending = s.pending := by
  induction ws generalizing s with
  | nil => rfl
  | cons w ws ih => rw [storeAll, ih, respond_pending, writeReg_pending]

/-- A line that stands for register writes does just those. -/
theorem run_line_stores (s t : State) (line : AsmLine) (ws : List (Reg × Word)) (hp : s.pending = [])
    (hline : line.accesses = storeAccesses ws) (hw : ∀ w ∈ ws, w.1.writable = true ∧ w.1 ≠ .cmd)
    (ht : storeAll s ws = t) : Host.Core.run core ws.length (s.loadProgram [line]) = .next t := by
  have hload : s.loadProgram [line] = { s with pending := (storeAccesses ws).map .access } := by
    rw [← hline, ← loadProgram_line_pending s line hp]
    rfl
  have hdone : storeAll s ws = { storeAll s ws with pending := [] } := by
    rw [← hp, ← storeAll_pending s ws]
  rw [hload, run_stores ws s hw, ← hdone, ht]

/-- CLRERR's value selects the three sticky flags (R28, R92). -/
theorem acknowledge_clrerr (st : Status) :
    st.acknowledge 0x0000000E = { st with cmdErr := false, cfgErr := false, hashErr := false } := by
  simp [Status.acknowledge]

/-- Settles O16: a line's accesses are taken one by each step, and each pseudo-instruction is a run of register writes. -/
theorem pseudoInstructionsRunTheirExpansions : Obligations.PseudoInstructionsRunTheirExpansions := by
  refine ⟨fun k v0 v1 n => ⟨rfl, rfl, rfl, rfl, rfl, rfl, rfl⟩, fun s line j hp hj => ?_, fun s k v0 v1 n hp => ?_⟩
  · have hload := loadProgram_line_pending s line hp
    obtain ⟨t, ht, hpending⟩ := run_takes_inputs j (s.loadProgram [line]) (by simpa [hload] using hj)
    exact ⟨t, ht, by rw [hpending, hload, List.map_drop]⟩
  · refine ⟨?_, ?_, ?_, ?_, ?_, ?_, ?_⟩
    · exact run_line_stores s _ _ [(.key 0, k.w0), (.key 1, k.w1), (.key 2, k.w2), (.key 3, k.w3)] hp rfl
        (by simp [Reg.writable]) (by simp only [storeAll, writeReg, respond, Words4.set])
    · exact run_line_stores s _ _ [(.iv 0, k.w0), (.iv 1, k.w1), (.iv 2, k.w2), (.iv 3, k.w3)] hp rfl
        (by simp [Reg.writable]) (by simp only [storeAll, writeReg, respond, Words4.set])
    · exact run_line_stores s _ _ [(.din 0, k.w0), (.din 1, k.w1), (.din 2, k.w2), (.din 3, k.w3)] hp rfl
        (by simp [Reg.writable]) (by simp only [storeAll, writeReg, respond, Words4.set])
    · exact run_line_stores s _ _ [(.iv 0, v0), (.iv 1, v1)] hp rfl
        (by simp [Reg.writable]) (by simp only [storeAll, writeReg, respond, Words4.set])
    · exact run_line_stores s _ _ [(.din 0, v0), (.din 1, v1)] hp rfl
        (by simp [Reg.writable]) (by simp only [storeAll, writeReg, respond, Words4.set])
    · exact run_line_stores s _ _ [(.msglenLo, n.extractLsb' 0 32), (.msglenHi, n.extractLsb' 32 32)] hp rfl
        (by simp [Reg.writable]) (by simp only [storeAll, writeReg, respond])
    · exact run_line_stores s _ _ [(.status, 0x0000000E)] hp rfl
        (by simp [Reg.writable]) (by simp only [storeAll, writeReg, respond, acknowledge_clrerr])

end Sys2Proof.Machine
end

