-- ==== Sys2Proof/Proofs/RoundPrimitives.lean ====
section
/-! The round primitives (40_round_primitives.md): where the permutation takes each output bit from (R104), the S-box as
an affine map of the field inverse (R100), the substitution byte by byte (R101), and MixColumn by its matrix (R102). -/

namespace Sys2Proof.Machine

/-! ## The permutation -/

/-- The high cursor of R104 when output bit k is made: each 1 bit of the mask below k has lowered it from n - 1. -/
def highCursor {n : Nat} (m : BitVec n) (k : Nat) : Nat := n - 1 - (List.range k).countP fun j => m.getLsbD j

/-- The low cursor of R104 when output bit k is made: each 0 bit of the mask below k has raised it from 0. -/
def lowCursor {n : Nat} (m : BitVec n) (k : Nat) : Nat := (List.range k).countP fun j => !m.getLsbD j

/-- The bit of x that the cursor named by mask bit k stands at when output bit k is made. -/
def cursorBit {n : Nat} (x m : BitVec n) (k : Nat) : Bool :=
  if m.getLsbD k then x.getLsbD (highCursor m k) else x.getLsbD (lowCursor m k)

theorem highCursor_succ {n : Nat} (m : BitVec n) (k : Nat) :
    highCursor m (k + 1) = if m.getLsbD k then highCursor m k - 1 else highCursor m k := by
  cases hk : m.getLsbD k <;> simp [highCursor, List.range_succ, hk, Nat.sub_add_eq]

theorem lowCursor_succ {n : Nat} (m : BitVec n) (k : Nat) :
    lowCursor m (k + 1) = if m.getLsbD k then lowCursor m k else lowCursor m k + 1 := by
  cases hk : m.getLsbD k <;> simp [lowCursor, List.range_succ, hk]

/-- One turn of the loop makes bit k and moves the cursors to where bit k + 1 wants them. -/
theorem permuteFrom_at_cursors {n : Nat} (x m : BitVec n) (left k : Nat) (y : BitVec n) :
    permuteFrom x m (left + 1) k (highCursor m k) (lowCursor m k) y =
      permuteFrom x m left (k + 1) (highCursor m (k + 1)) (lowCursor m (k + 1)) (putBit y k (cursorBit x m k)) := by
  rw [permuteFrom_succ, highCursor_succ, lowCursor_succ, cursorBit]
  cases m.getLsbD k <;> rfl

/-- The loop from bit k on makes every bit from k on, each from its own cursor, when none of them has been set yet. -/
theorem getLsbD_permuteFrom {n : Nat} (x m : BitVec n) (left k : Nat) (y : BitVec n) (hn : k + left = n)
    (hy : ∀ j, k ≤ j → y.getLsbD j = false) (q : Nat) (hkq : k ≤ q) (hqn : q < n) :
    (permuteFrom x m left k (highCursor m k) (lowCursor m k) y).getLsbD q = cursorBit x m q := by
  induction left generalizing k y with
  | zero => omega
  | succ left ih =>
    have hk : k < n := by omega
    rw [permuteFrom_at_cursors]
    rcases Nat.eq_or_lt_of_le hkq with rfl | hlt
    · rw [permuteFrom_below x m left (k + 1) _ _ _ (by omega) k (Nat.lt_succ_self k), getLsbD_putBit _ _ _ hk]
      simp [hy k (Nat.le_refl k)]
    · refine ih (k + 1) _ (by omega) (fun j hj => ?_) hlt
      have hjk : j ≠ k := by omega
      simp [getLsbD_putBit _ _ _ hk, hy j (by omega), hjk]

theorem getLsbD_permute {n : Nat} (x m : BitVec n) (k : Nat) (hk : k < n) :
    (permute x m).getLsbD k = cursorBit x m k :=
  getLsbD_permuteFrom x m n 0 0 (Nat.zero_add n) (fun _ _ => BitVec.getLsbD_zero) k (Nat.zero_le k) hk

/-- Settles O25: `getLsbD_permute`, with the cursors written out. -/
theorem permuteRoutesEachBitByTheCursors : Obligations.PermuteRoutesEachBitByTheCursors :=
  fun _ x m k hk => getLsbD_permute x m k hk

/-! ## Byte substitution -/

/-- The product in GF(2^8) modulo 0x11B, by Horner's rule over the bits of y from the highest down. -/
def gfMul (y b : Byte) : Byte :=
  (List.range 8).foldl (fun acc k => mul2 acc ^^^ (if y.getLsbD (7 - k) then b else 0)) 0

/-- The affine map of R100, without its constant. -/
def sboxAffine (y : Byte) : Byte := y ^^^ y.rotateLeft 1 ^^^ y.rotateLeft 2 ^^^ y.rotateLeft 3 ^^^ y.rotateLeft 4

/-- The inverse of that map: modulo X^8 - 1 the product of X + X^3 + X^6 and 1 + X + X^2 + X^3 + X^4 is 1. -/
def sboxAffineInv (z : Byte) : Byte := z.rotateLeft 1 ^^^ z.rotateLeft 3 ^^^ z.rotateLeft 6

theorem sboxAffine_sboxAffineInv : ∀ z : Byte, sboxAffine (sboxAffineInv z) = z := by decide +kernel

/-- The byte that the affine map takes to R100's table entry. -/
def sboxPreimage (b : Byte) : Byte := sboxAffineInv (sb b ^^^ 0x63)

theorem sboxAffine_sboxPreimage (b : Byte) : sboxAffine (sboxPreimage b) ^^^ 0x63 = sb b := by
  rw [sboxPreimage, sboxAffine_sboxAffineInv, BitVec.xor_assoc, BitVec.xor_self, BitVec.xor_zero]

/-- Undoing the affine map on the table leaves the table of inverses: each of the 255 products is 1. -/
theorem gfMul_sboxPreimage : ∀ b : Byte, b ≠ 0 → gfMul (sboxPreimage b) b = 1 := by decide +kernel

theorem sboxPreimage_zero : sboxPreimage 0 = 0 := by decide

/-- Settles O21: the inverse of b is the byte that the affine map takes to the table's entry. -/
theorem sboxIsAffineMapOfFieldInverse : Obligations.SboxIsAffineMapOfFieldInverse := by
  refine ⟨fun b => ⟨sboxPreimage b, gfMul_sboxPreimage b, ?_, (sboxAffine_sboxPreimage b).symm⟩, by decide⟩
  rintro rfl
  exact sboxPreimage_zero

theorem sb_ne_self : ∀ b : Byte, sb b ≠ b := by decide +kernel

theorem byteLane_subWord (w : Word) (j : Fin 4) : byteLane (subWord w) j = sb (byteLane w j) := by
  obtain ⟨h0, h1, h2, h3⟩ :=
    byteLane_append (sb (byteLane w 3)) (sb (byteLane w 2)) (sb (byteLane w 1)) (sb (byteLane w 0))
  match j with
  | 0 => exact h0
  | 1 => exact h1
  | 2 => exact h2
  | 3 => exact h3

/-- The bytes of two words joined: the low four are those of the second word. -/
theorem extractLsb'_append32_byte (a b : Word) (j : Nat) :
    (a ++ b : BitVec 64).extractLsb' (8 * j) 8 = if j < 4 then byteLane b j else byteLane a (j - 4) := by
  split
  · exact BitVec.extractLsb'_append_eq_of_add_le (by omega)
  · rw [byteLane, Nat.mul_sub]
    exact BitVec.extractLsb'_append_eq_of_le (by omega)

theorem sub64_append (a b : Word) : sub64 (a ++ b) = subWord a ++ subWord b := by
  obtain ⟨hhigh, hlow⟩ := extract_append32 a b
  rw [sub64, hhigh, hlow]

theorem extractLsb'_sub64_byte (x : BitVec 64) (j : Fin 8) :
    (sub64 x).extractLsb' (8 * j.val) 8 = sb (x.extractLsb' (8 * j.val) 8) := by
  rw [← append_extract32 x, sub64_append, extractLsb'_append32_byte, extractLsb'_append32_byte]
  split
  case isTrue hj => exact byteLane_subWord _ ⟨j, hj⟩
  case isFalse hj => exact byteLane_subWord _ ⟨j - 4, by omega⟩

/-- Settles O22: the byte lanes of `subWord`, and of `sub64` by its two halves. -/
theorem substitutionActsOnEachByte : Obligations.SubstitutionActsOnEachByte :=
  ⟨byteLane_subWord, extractLsb'_sub64_byte, fun _ => rfl, by decide, by decide, sb_ne_self, by decide, by decide⟩

/-! ## Diffusion -/

theorem mul2_xor_mul3 (b : Byte) : mul2 b ^^^ mul3 b = b := by
  rw [mul3, ← BitVec.xor_assoc, BitVec.xor_self, BitVec.zero_xor]

/-- Each row of R102's matrix holds 2, 3, 1 and 1, which XOR to 1. -/
theorem mixColumn_equal_bytes (b : Byte) : mixColumn (b ++ b ++ b ++ b) = b ++ b ++ b ++ b := by
  obtain ⟨h0, h1, h2, h3⟩ := byteLane_append b b b b
  have row0 : mul2 b ^^^ mul3 b ^^^ b ^^^ b = b := by
    rw [mul2_xor_mul3, BitVec.xor_self, BitVec.zero_xor]
  have row1 : b ^^^ mul2 b ^^^ mul3 b ^^^ b = b := by
    rw [BitVec.xor_assoc b, mul2_xor_mul3, BitVec.xor_self, BitVec.zero_xor]
  have row2 : b ^^^ b ^^^ mul2 b ^^^ mul3 b = b := by
    rw [BitVec.xor_self, BitVec.zero_xor, mul2_xor_mul3]
  have row3 : mul3 b ^^^ b ^^^ b ^^^ mul2 b = b := by
    rw [BitVec.xor_assoc (mul3 b), BitVec.xor_self, BitVec.xor_zero, BitVec.xor_comm, mul2_xor_mul3]
  simp only [mixColumn, h0, h1, h2, h3, row0, row1, row2, row3]

/-- Settles O23: the matrix by the byte lanes of a joined word. -/
theorem mixColumnIsTheMatrixOnByteLanes : Obligations.MixColumnIsTheMatrixOnByteLanes := by
  refine ⟨fun b => ?_, fun _ => rfl, fun w => ?_, by decide, by decide, by decide, by decide,
    mixColumn_equal_bytes, by decide, by decide, by decide⟩
  · have hmask : b <<< 1 &&& (0xFF : Byte) = b <<< 1 := BitVec.and_allOnes
    rw [hmask]
    rfl
  · exact byteLane_append _ _ _ _

end Sys2Proof.Machine
end

