-- ==== Sys2Proof/Proofs/KeySchedule.lean ====
section
/-! The key schedule (41_key_schedule.md): the loop of R122 leaves the pool it is given in place and makes each later
word by the recurrence (R120 to R122), RotWord on the four bytes (R123) and the round constants (R121). -/

namespace Sys2Proof.Machine

/-! ## The loop of the recurrence -/

theorem keyExpandFrom_succ (left i : Nat) (pool : List Word) :
    keyExpandFrom (left + 1) i pool = keyExpandFrom left (i + 1) (pool ++ [nextPoolWord pool i]) := rfl

@[simp] theorem length_keyExpandFrom (left i : Nat) (pool : List Word) :
    (keyExpandFrom left i pool).length = pool.length + left := by
  induction left generalizing i pool with
  | zero => rfl
  | succ left ih =>
    rw [keyExpandFrom_succ, ih, List.length_append, List.length_singleton]
    omega

/-- The loop only appends: a word once made is never changed. -/
theorem getD_keyExpandFrom_of_lt (left i : Nat) (pool : List Word) (j : Nat) (hj : j < pool.length) :
    (keyExpandFrom left i pool).getD j 0 = pool.getD j 0 := by
  induction left generalizing i pool with
  | zero => rfl
  | succ left ih =>
    have hj' : j < (pool ++ [nextPoolWord pool i]).length := by
      rw [List.length_append]
      omega
    rw [keyExpandFrom_succ, ih _ _ hj', List.getD_append _ _ _ _ hj]

/-- Word i of the recurrence reads words i - 4 and i - 1 only. -/
theorem nextPoolWord_congr (pool pool' : List Word) (i : Nat) (hi : 0 < i)
    (h : ∀ j, j < i → pool'.getD j 0 = pool.getD j 0) : nextPoolWord pool' i = nextPoolWord pool i := by
  rw [nextPoolWord, nextPoolWord, h (i - 4) (by omega), h (i - 1) (by omega)]

/-- Each word that the loop appends is the recurrence's word of the finished pool. -/
theorem getD_keyExpandFrom_of_ge (left i : Nat) (pool : List Word) (hlen : pool.length = i) (hi : 0 < i) (j : Nat)
    (hij : i ≤ j) (hj : j < i + left) :
    (keyExpandFrom left i pool).getD j 0 = nextPoolWord (keyExpandFrom left i pool) j := by
  induction left generalizing i pool with
  | zero => omega
  | succ left ih =>
    have hlen' : (pool ++ [nextPoolWord pool i]).length = i + 1 := by
      rw [List.length_append, hlen, List.length_singleton]
    rcases Nat.eq_or_lt_of_le hij with rfl | hlt
    · have hnew : (keyExpandFrom (left + 1) i pool).getD i 0 = nextPoolWord pool i := by
        rw [keyExpandFrom_succ, getD_keyExpandFrom_of_lt _ _ _ i (by omega),
          List.getD_append_right _ _ _ _ hlen.le, hlen, Nat.sub_self, List.getD_cons_zero]
      rw [hnew]
      exact (nextPoolWord_congr _ _ i hi fun k hk => getD_keyExpandFrom_of_lt _ _ _ k (hlen ▸ hk)).symm
    · exact ih (i + 1) _ hlen' (Nat.succ_pos i) hlt (by omega)

/-! ## The pool of a key -/

theorem length_keyExpand (key : Words4) : (keyExpand key).length = 44 :=
  length_keyExpandFrom 40 4 _

/-- R120. -/
theorem getD_keyExpand_key (key : Words4) (i : Fin 4) : (keyExpand key).getD i.val 0 = key.get i := by
  rw [keyExpand, getD_keyExpandFrom_of_lt 40 4 [key.w0, key.w1, key.w2, key.w3] i.val i.isLt]
  match i with
  | 0 => rfl
  | 1 => rfl
  | 2 => rfl
  | 3 => rfl

/-- R122. -/
theorem getD_keyExpand_recurrence (key : Words4) (i : Nat) (hlo : 4 ≤ i) (hhi : i ≤ 43) :
    (keyExpand key).getD i 0 =
      scheduleWord i ((keyExpand key).getD (i - 4) 0) ((keyExpand key).getD (i - 1) 0) :=
  getD_keyExpandFrom_of_ge 40 4 _ rfl (by omega) i hlo (by omega)

/-! ## RotWord and the round constants -/

/-- R123, bit by bit: the low byte comes from the top, every other bit from eight places below. -/
theorem getLsbD_rotWord (w : Word) (i : Nat) (hi : i < 32) :
    (rotWord w).getLsbD i = if i < 8 then w.getLsbD (24 + i) else w.getLsbD (i - 8) := by
  rw [rotWord, BitVec.getLsbD_rotateLeft]
  by_cases hlow : i < 8 <;> simp [hlow, hi]

theorem rotWord_append (b0 b1 b2 b3 : Byte) : rotWord (b0 ++ b1 ++ b2 ++ b3) = b1 ++ b2 ++ b3 ++ b0 := by
  apply BitVec.eq_of_getLsbD_eq
  intro i hi
  rw [getLsbD_rotWord _ i hi, getLsbD_append8 b1 b2 b3 b0]
  split
  · rw [getLsbD_append8, if_neg (by omega), if_neg (by omega), if_neg (by omega), Nat.add_sub_cancel_left]
  · rw [getLsbD_append8]
    have h16 : i - 8 < 8 ↔ i < 16 := by omega
    have h24 : i - 8 < 16 ↔ i < 24 := by omega
    have h32 : i - 8 < 24 := by omega
    simp only [h16, h24, h32, if_true, Nat.sub_sub]

theorem rcon_succ (j : Nat) (hj : 1 ≤ j) : rcon (j + 1) = mul2 (rcon j) := by
  obtain ⟨k, rfl⟩ := Nat.exists_eq_add_of_le' hj
  rfl

/-- Settles O28: the key first, then the recurrence of the loop, whose words are those of the finished pool. -/
theorem keyPoolFollowsTheRecurrence : Obligations.KeyPoolFollowsTheRecurrence :=
  ⟨fun key => ⟨length_keyExpand key, getD_keyExpand_key key, getD_keyExpand_recurrence key⟩,
    rotWord_append, rfl, rfl, rcon_succ⟩

end Sys2Proof.Machine
end

