-- ==== Sys2Proof/Proofs/Feistel.lean ====
section
/-! The Feistel engine (42_feistel_engine.md): encryption peels its last round off the end, decryption undoes that round
first, for both block sizes (R131, R132, R134, R135). -/

namespace Sys2Proof.Machine

/-! ## The round keys -/

/-- R125: every round that the hardware reaches reads the pool at its own place. -/
theorem poolWord_eq_getD (pool : List Word) (i : Nat) (hi : i < 44) : poolWord pool i = pool.getD i 0 := by
  rw [poolWord, Nat.mod_eq_of_lt hi]

theorem roundKey1_eq_getD (pool : List Word) (r : Nat) (hr : r < 22) : roundKey1 pool r = pool.getD (2 * r) 0 :=
  poolWord_eq_getD pool (2 * r) (by omega)

theorem roundKey2_eq_getD (pool : List Word) (r : Nat) (hr : r < 22) : roundKey2 pool r = pool.getD (2 * r + 1) 0 :=
  poolWord_eq_getD pool (2 * r + 1) (by omega)

theorem roundKey64_eq_getD (pool : List Word) (r : Nat) (hr : r < 22) :
    roundKey64 pool r = pool.getD (2 * r) 0 ++ pool.getD (2 * r + 1) 0 := by
  rw [roundKey64, roundKey1_eq_getD pool r hr, roundKey2_eq_getD pool r hr]

/-! ## The order of the rounds -/

/-- Rounds in ascending order: the new one comes last. -/
theorem foldl_range_succ {β : Type} (round : β → Nat → β) (n : Nat) (b : β) :
    (List.range (n + 1)).foldl round b = round ((List.range n).foldl round b) n := by
  rw [List.range_succ, List.foldl_concat]

/-- Rounds in descending order: the new one comes first. -/
theorem foldl_reverse_range_succ {β : Type} (round : β → Nat → β) (n : Nat) (b : β) :
    (List.range (n + 1)).reverse.foldl round b = (List.range n).reverse.foldl round (round b n) := by
  rw [List.range_succ, List.reverse_concat, List.foldl_cons]

@[simp] theorem enc64_zero (pool : List Word) (b : Word × Word) : enc64 pool 0 b = b := rfl

@[simp] theorem dec64_zero (pool : List Word) (b : Word × Word) : dec64 pool 0 b = b := rfl

@[simp] theorem enc128_zero (pool : List Word) (b : Words4) : enc128 pool 0 b = b := fromHalves_halves b

@[simp] theorem dec128_zero (pool : List Word) (b : Words4) : dec128 pool 0 b = b := fromHalves_halves b

theorem enc64_succ (pool : List Word) (n : Nat) (b : Word × Word) :
    enc64 pool (n + 1) b = encRound64 pool (enc64 pool n b) n :=
  foldl_range_succ _ n b

theorem dec64_succ (pool : List Word) (n : Nat) (b : Word × Word) :
    dec64 pool (n + 1) b = dec64 pool n (decRound64 pool b n) :=
  foldl_reverse_range_succ _ n b

theorem enc128_succ (pool : List Word) (n : Nat) (b : Words4) :
    enc128 pool (n + 1) b = fromHalves (encRound128 pool (halves (enc128 pool n b)) n) := by
  rw [enc128, enc128, foldl_range_succ, halves_fromHalves]

theorem dec128_succ (pool : List Word) (n : Nat) (b : Words4) :
    dec128 pool (n + 1) b = dec128 pool n (fromHalves (decRound128 pool (halves b) n)) := by
  rw [dec128, dec128, foldl_reverse_range_succ, halves_fromHalves]

/-! ## One round by the pool's words -/

theorem encRound64_eq (pool : List Word) (b : Word × Word) (r : Nat) (hr : r < 22) :
    encRound64 pool b r = (b.2, b.1 ^^^ f32 b.2 (pool.getD (2 * r) 0) (pool.getD (2 * r + 1) 0)) := by
  rw [encRound64, roundKey1_eq_getD pool r hr, roundKey2_eq_getD pool r hr]

theorem decRound64_eq (pool : List Word) (b : Word × Word) (r : Nat) (hr : r < 22) :
    decRound64 pool b r = (b.2 ^^^ f32 b.1 (pool.getD (2 * r) 0) (pool.getD (2 * r + 1) 0), b.1) := by
  rw [decRound64, roundKey1_eq_getD pool r hr, roundKey2_eq_getD pool r hr]

theorem encRound128_eq (pool : List Word) (b : BitVec 64 × BitVec 64) (r : Nat) (hr : r < 22) :
    encRound128 pool b r = (b.2, b.1 ^^^ f64 b.2 (pool.getD (2 * r) 0 ++ pool.getD (2 * r + 1) 0)) := by
  rw [encRound128, roundKey64_eq_getD pool r hr]

theorem decRound128_eq (pool : List Word) (b : BitVec 64 × BitVec 64) (r : Nat) (hr : r < 22) :
    decRound128 pool b r = (b.2 ^^^ f64 b.1 (pool.getD (2 * r) 0 ++ pool.getD (2 * r + 1) 0), b.1) := by
  rw [decRound128, roundKey64_eq_getD pool r hr]

/-- Settles O29: the order of the rounds by `enc64_succ` and its three companions, each round by its pool words. -/
theorem feistelRoundsInOrderAndInReverse : Obligations.FeistelRoundsInOrderAndInReverse := by
  refine ⟨fun _ _ _ => rfl, by decide +kernel, fun _ _ => rfl, by decide +kernel,
    fun w n l r hn => ⟨enc64_zero w _, dec64_zero w _, ?_, ?_⟩,
    fun w n b hn => ⟨enc128_zero w b, dec128_zero w b, ?_, ?_⟩, by decide +kernel⟩
  · rw [enc64_succ, encRound64_eq _ _ n hn]
  · rw [dec64_succ, decRound64_eq _ _ n hn]
  · rw [enc128_succ, encRound128_eq _ _ n hn]
    rfl
  · rw [dec128_succ, decRound128_eq _ _ n hn]
    rfl

end Sys2Proof.Machine
end

section
/-! The encrypting cipher commands and the keystream commands (43_cipher_modes.md R152, R154, R156 to R161): each writes
one block to DOUT in the frame of R150, so a command is known by the block it writes. -/

namespace Sys2Proof.Machine

/-! ## The block that each command writes -/

/-- R152. -/
theorem exec_ecbEnc (bsz : BlockSize) (s : State) :
    exec (.ecbEnc bsz) s =
      .next (cipherDone s bsz (fe bsz (keyExpand s.key) s.rounds.toNat (blockOf bsz s.din))) := rfl

/-- R154. -/
theorem exec_cbcEnc (bsz : BlockSize) (s : State) :
    exec (.cbcEnc bsz) s =
      .next (cipherDone s bsz
        (fe bsz (keyExpand s.key) s.rounds.toNat ((blockOf bsz s.din).xor (blockOf bsz s.iv)))) := rfl

/-- The commands of the keystream modes CFB, OFB and CTR (R156 to R161), with their block size. -/
def isKeystream (i : Instr) (bsz : BlockSize) : Prop :=
  i = .cfbEnc bsz ∨ i = .cfbDec bsz ∨ i = .ofbEnc bsz ∨ i = .ofbDec bsz ∨ i = .ctrEnc bsz ∨ i = .ctrDec bsz

theorem keystreamXor_eq (bsz : BlockSize) (s : State) :
    keystreamXor bsz s =
      (fe bsz (keyExpand s.key) s.rounds.toNat (blockOf bsz s.iv)).xor (blockOf bsz s.din) := rfl

/-- R156 to R161: the three modes and both directions are one function. -/
theorem exec_keystream (i : Instr) (bsz : BlockSize) (s : State) (h : isKeystream i bsz) :
    exec i s = .next (cipherDone s bsz (keystreamXor bsz s)) := by
  rcases h with rfl | rfl | rfl | rfl | rfl | rfl <;> rfl

/-- What a cipher command leaves in DOUT, from the block that it writes. -/
theorem exists_dout_of_exec {i : Instr} {s : State} {bsz : BlockSize} {o d : Words4}
    (h : exec i s = .next (cipherDone s bsz o)) (hd : blockOf bsz o = d) :
    ∃ t, exec i s = .next t ∧ t.dout = d :=
  ⟨cipherDone s bsz o, h, (cipherDone_dout s bsz o).trans hd⟩

/-! ## The block of zeros -/

@[simp] theorem xor_zeroBlock (x : Words4) : x.xor ⟨0, 0, 0, 0⟩ = x := by
  cases x
  simp [Words4.xor]

/-- R154: CBC_ENC with I = 0 is ECB_ENC. -/
theorem exec_cbcEnc_of_zero_iv (bsz : BlockSize) (s : State) (hiv : blockOf bsz s.iv = ⟨0, 0, 0, 0⟩) :
    exec (.cbcEnc bsz) s = exec (.ecbEnc bsz) s := by
  rw [exec_cbcEnc, exec_ecbEnc, hiv, xor_zeroBlock]

/-- R156: with no input the output is the keystream itself. -/
theorem keystreamXor_of_zero_din (bsz : BlockSize) (s : State) (hdin : blockOf bsz s.din = ⟨0, 0, 0, 0⟩) :
    keystreamXor bsz s = fe bsz (keyExpand s.key) s.rounds.toNat (blockOf bsz s.iv) := by
  rw [keystreamXor_eq, hdin, xor_zeroBlock]

/-! ## The command words -/

/-- Format C (R81): BSZ is bit 4, or-ed into the mode's word for a 64-bit block. -/
theorem encodeC_eq_or_bsz (mode : BitVec 3) (dir : BitVec 1) (bsz : BlockSize) :
    encodeC mode dir bsz = encodeC mode dir .b64 ||| (bsz.bit.setWidth 32 <<< 4) := by
  revert mode dir
  cases bsz <;> decide +kernel

/-! ## The obligations -/

/-- Settles O31. -/
theorem ecbEncWritesFeistelOfTheInput : Obligations.EcbEncWritesFeistelOfTheInput := by
  refine ⟨exec_ecbEnc, encodeC_eq_or_bsz 0 0, fun s hkey hrounds hdin =>
    ⟨exists_dout_of_exec (exec_ecbEnc .b64 s) ?_, exists_dout_of_exec (exec_ecbEnc .b128 s) ?_⟩⟩
  all_goals
    rw [hkey, hrounds, hdin]
    decide +kernel

/-- Settles O33; the corner case I = 0 by `exec_cbcEnc_of_zero_iv`. -/
theorem cbcEncWritesFeistelOfInputXorIv : Obligations.CbcEncWritesFeistelOfInputXorIv := by
  refine ⟨exec_cbcEnc, encodeC_eq_or_bsz 1 0, exec_cbcEnc_of_zero_iv, fun s hkey hrounds hdin hiv =>
    ⟨exists_dout_of_exec (exec_cbcEnc .b64 s) ?_, exists_dout_of_exec (exec_cbcEnc .b128 s) ?_⟩⟩
  all_goals
    rw [hkey, hrounds, hdin, hiv]
    decide +kernel

/-- Settles O35: one equation for the six commands (`exec_keystream`), and the keystream itself by
`keystreamXor_of_zero_din`. -/
theorem keystreamCommandsWriteFeistelOfIvXorInput : Obligations.KeystreamCommandsWriteFeistelOfIvXorInput := by
  refine ⟨fun bsz s i h => exec_keystream i bsz s h,
    fun bsz => ⟨encodeC_eq_or_bsz 2 0 bsz, encodeC_eq_or_bsz 2 1 bsz, encodeC_eq_or_bsz 3 0 bsz,
      encodeC_eq_or_bsz 3 1 bsz, encodeC_eq_or_bsz 4 0 bsz, encodeC_eq_or_bsz 4 1 bsz⟩,
    fun s hkey hrounds hiv => ?_⟩
  have hcfb (bsz : BlockSize) : exec (.cfbEnc bsz) s = .next (cipherDone s bsz (keystreamXor bsz s)) :=
    exec_keystream _ bsz s (.inl rfl)
  refine ⟨fun hdin => ⟨exists_dout_of_exec (hcfb .b64) ?_, exists_dout_of_exec (hcfb .b128) ?_⟩,
    fun hdin => exists_dout_of_exec (hcfb .b128) ?_⟩
  · rw [keystreamXor_eq, hkey, hrounds, hiv, hdin]
    decide +kernel
  · rw [keystreamXor_eq, hkey, hrounds, hiv, hdin]
    decide +kernel
  · rw [keystreamXor_of_zero_din .b128 s hdin, hkey, hrounds, hiv]
    decide +kernel

end Sys2Proof.Machine
end

section
/-! The hash key schedule (44_hash_key_schedule.md R180): the register before each round, and the round keys as the front
words of these registers. -/

namespace Sys2Proof.Machine

/-! ## The register before each round -/

/-- The hash key register k before round i, seeded with the key (R180). -/
def hksRegister (p : HashParams) (key : Words4) : Nat → Words4
  | 0 => key
  | i + 1 => hksShift p i (hksRegister p key i)

@[simp] theorem hksRegister_zero (p : HashParams) (key : Words4) : hksRegister p key 0 = key := rfl

theorem hksRegister_succ (p : HashParams) (key : Words4) (i : Nat) :
    hksRegister p key (i + 1) = hksShift p i (hksRegister p key i) := rfl

/-- R180, the shift of a round that the schedule reaches: round i takes the constant HASH_RC[i]. -/
theorem hksShift_eq (p : HashParams) (i : Fin 64) (k : Words4) :
    hksShift p i.val k = ⟨g (k.w2 ^^^ p.rc i) ^^^ k.w3, k.w0, k.w1, k.w2⟩ := by
  rw [hksShift, hksWord, Fin.ofNat_val_eq_self]

/-! ## The loop of the schedule -/

theorem hksFrom_succ (p : HashParams) (left i : Nat) (k : Words4) :
    hksFrom p (left + 1) i k = k.w0 :: hksFrom p left (i + 1) (hksShift p i k) := rfl

@[simp] theorem length_hksFrom (p : HashParams) (left i : Nat) (k : Words4) : (hksFrom p left i k).length = left := by
  induction left generalizing i k with
  | zero => rfl
  | succ left ih => rw [hksFrom_succ, List.length_cons, ih]

/-- From round i on, with the register that the rounds before it leave, the loop emits the front word of each later
register. -/
theorem getD_hksFrom_hksRegister (p : HashParams) (key : Words4) (left i j : Nat) (hj : j < left) :
    (hksFrom p left i (hksRegister p key i)).getD j 0 = (hksRegister p key (i + j)).w0 := by
  induction left generalizing i j with
  | zero => exact absurd hj (Nat.not_lt_zero j)
  | succ left ih =>
    rw [hksFrom_succ]
    cases j with
    | zero => rfl
    | succ j =>
      rw [List.getD_cons_succ, ← hksRegister_succ, ih (i + 1) j (Nat.lt_of_succ_lt_succ hj), Nat.succ_add_eq_add_succ]

/-! ## The round keys -/

theorem length_hks (p : HashParams) (key : Words4) : (hks p key).length = 64 :=
  length_hksFrom p 64 0 key

/-- R180: RK[i] is the front word of the register before round i. -/
theorem getD_hks (p : HashParams) (key : Words4) (i : Nat) (hi : i < 64) :
    (hks p key).getD i 0 = (hksRegister p key i).w0 := by
  have h := getD_hksFrom_hksRegister p key 64 0 i hi
  rwa [Nat.zero_add] at h

/-- Settles O40: the registers are `hksRegister`, the round keys by `getD_hks`, each shift by `hksShift_eq`. -/
theorem hashKeyScheduleShiftsInAtTheFront : Obligations.HashKeyScheduleShiftsInAtTheFront := by
  refine ⟨fun p key => ⟨length_hks p key, hksRegister p key, hksRegister_zero p key,
      fun i => ⟨getD_hks p key i.val i.isLt, ?_⟩⟩,
    fun p key => getD_hks p key 0 (by decide), fun _ _ _ => rfl, by decide, by decide⟩
  rw [hksRegister_succ, hksShift_eq]
  rfl

end Sys2Proof.Machine
end

section
/-! The hash compression (45_hash_compression.md R190 to R193): the working register before each round, the last one being
the new chaining value as it stands. -/

namespace Sys2Proof.Machine

/-! ## The combining function -/

/-- A word is its two half-words joined. -/
theorem append_extract16 (w : Word) : (w.extractLsb' 16 16 ++ w.extractLsb' 0 16 : Word) = w :=
  (BitVec.extractLsb'_append_extractLsb'_eq_extractLsb' rfl).trans BitVec.extractLsb'_eq_self

/-- R190: with equal operands the exchange of the low halves changes nothing. -/
theorem fh_self (a : Word) : fh a a = (g a, g a) :=
  congrArg (fun w => (w, w)) (append_extract16 (g a))

/-! ## The register before each round -/

/-- The working register X before round i of `Compress(H, M)`: the first i round keys are used up (R191). -/
def compressRegister (p : HashParams) (h : Words8) (m : Words4) (i : Nat) : Words8 :=
  ((hks p h.firstHalf).take i).foldl compressRound (workingRegister h m)

/-- R192. -/
@[simp] theorem compressRegister_zero (p : HashParams) (h : Words8) (m : Words4) :
    compressRegister p h m 0 = workingRegister h m := rfl

/-- R191: round i takes the round key RK[i]. -/
theorem compressRegister_succ (p : HashParams) (h : Words8) (m : Words4) (i : Nat) (hi : i < 64) :
    compressRegister p h m (i + 1) = compressRound (compressRegister p h m i) ((hks p h.firstHalf).getD i 0) := by
  have hlen : i < (hks p h.firstHalf).length := by rwa [length_hks]
  have hkeys : (hks p h.firstHalf).take (i + 1) = (hks p h.firstHalf).take i ++ [(hks p h.firstHalf).getD i 0] := by
    rw [List.take_succ_eq_append_getElem hlen, List.getD_eq_getElem _ _ hlen]
  calc compressRegister p h m (i + 1)
    _ = ((hks p h.firstHalf).take i ++ [(hks p h.firstHalf).getD i 0]).foldl compressRound (workingRegister h m) :=
      congrArg (List.foldl compressRound (workingRegister h m)) hkeys
    _ = compressRound (compressRegister p h m i) ((hks p h.firstHalf).getD i 0) := List.foldl_concat ..

/-- R193: the 64 rounds use up the round keys, and nothing follows them. -/
theorem compress_eq_compressRegister (p : HashParams) (h : Words8) (m : Words4) :
    compress p h m = compressRegister p h m 64 :=
  have hkeys : (hks p h.firstHalf).take 64 = hks p h.firstHalf := List.take_of_length_le (length_hks p h.firstHalf).le
  congrArg (List.foldl compressRound (workingRegister h m)) hkeys.symm

/-! ## The trace -/

set_option maxRecDepth 1024 in
/-- R194, the result under P_TEST: each hash constant is its own index, H is HASH_IV and M is 0. The registers' words
nest through all 64 rounds, a little deeper than the default recursion depth of 512. -/
theorem compress_trace :
    compress ⟨fun i => BitVec.ofNat 32 i.val, fun j => BitVec.ofNat 32 j.val⟩ ⟨0, 1, 2, 3, 4, 5, 6, 7⟩ ⟨0, 0, 0, 0⟩ =
      ⟨0x3b5a4caf, 0x14d056f7, 0x7101670e, 0x80e87055, 0x80bb3a64, 0xd14f5c2d, 0x017e2f01, 0x4eea2cc1⟩ := by
  decide

/-- Settles O41: the registers are `compressRegister`, each round by `compressRegister_succ`, the result by
`compress_eq_compressRegister`; the corner case of equal operands by `fh_self`, the trace by `compress_trace`. -/
theorem compressionIsSixtyFourRounds : Obligations.CompressionIsSixtyFourRounds :=
  ⟨fun _ _ => rfl, fh_self, by decide, by decide,
    fun p h m => ⟨compressRegister p h m, compressRegister_zero p h m, compress_eq_compressRegister p h m,
      compressRegister_succ p h m⟩,
    compress_trace⟩

end Sys2Proof.Machine
end

section
/-! The hash streaming commands (46_hash_streaming.md R200 to R209): each command where it is allowed and where it is
rejected, what HASH_UPDATE and HASH_FINAL compress, bit by bit, and the HSTATE transitions. -/

namespace Sys2Proof.Machine

/-! ## The commands, allowed and rejected -/

/-- R201. -/
theorem exec_hashInit (s : State) : exec .hashInit s = .next (hashInitWith Config.hash s) := rfl

/-- R203, for the values of NBITS that a command word can hold. -/
theorem exec_hashUpdate (nbits : BitVec 8) (s : State) (hn : nbits.toNat ≤ 128) :
    exec (.hashUpdate nbits) s = .next (hashUpdateWith Config.hash nbits.toNat s) :=
  if_pos hn

/-- R205. -/
theorem exec_hashFinal (s : State) : exec .hashFinal s = .next (hashFinalWith Config.hash s) := rfl

/-- R209, HASH_UPDATE. -/
theorem hashUpdateWith_of_rejected (p : HashParams) (n : Nat) (s : State)
    (h : s.status.hstate = .idle ∨ s.status.hstate = .final) : hashUpdateWith p n s = reject s .hashErr :=
  if_neg (Bool.eq_false_iff.1 ((accepts_eq_false_iff _).2 h))

/-- R209, HASH_FINAL. -/
theorem hashFinalWith_of_rejected (p : HashParams) (s : State)
    (h : s.status.hstate = .idle ∨ s.status.hstate = .final) : hashFinalWith p s = reject s .hashErr :=
  if_neg (Bool.eq_false_iff.1 ((accepts_eq_false_iff _).2 h))

/-- R242, the rejection of a hash command, field by field. -/
theorem reject_hashErr_eq (s : State) :
    reject s .hashErr = { s with status := { s.status with lastFail := true, hashErr := true } } := rfl

/-- Settles O42. -/
theorem hashInitStartsANewHash : Obligations.HashInitStartsANewHash :=
  ⟨exec_hashInit, rfl, fun s => hashInitWith_h _ s⟩

/-- Settles O45. -/
theorem wrongStateHashCommandsAreRejected : Obligations.WrongStateHashCommandsAreRejected := by
  rintro s i hstate (rfl | ⟨nbits, hn, rfl⟩)
  · rw [exec_hashFinal, hashFinalWith_of_rejected _ s hstate, reject_hashErr_eq]
  · rw [exec_hashUpdate nbits s hn, hashUpdateWith_of_rejected _ _ s hstate, reject_hashErr_eq]

/-! ## HASH_UPDATE: the buffer and the block -/

/-- R67: the bits of a block, first bit first, as a list indexed by position. -/
theorem bitsOf_eq_ofFn (v : BitVec 128) : bitsOf v = List.ofFn fun p : Fin 128 => v.getLsbD (127 - p.val) := by
  apply List.ext_getElem?
  intro p
  by_cases hp : p < 128
  · rw [bitsOf_getElem?_of_lt v p hp, List.getElem?_ofFn, dif_pos hp]
  · rw [bitsOf_getElem?, if_neg hp, List.getElem?_ofFn, dif_neg hp]

/-- R203, `pad128`: position p of the string is bit 127 - p of the block, and positions past its end are 0. -/
theorem getLsbD_pad128 (l : List Bool) (p : Fin 128) : (pad128 l).getLsbD (127 - p.val) = l.getD p.val false := by
  have h := getMsbD_pad128 l p.val
  rwa [BitVec.getMsbD_eq_getLsbD, decide_eq_true p.isLt, Bool.true_and, Bool.true_and] at h

/-- The block that the first 128 bits of a string make. -/
theorem getLsbD_firstBlock (t : List Bool) (p : Fin 128) :
    (words (pad128 (t.take 128))).cat.getLsbD (127 - p.val) = t.getD p.val false := by
  rw [cat_words, getLsbD_pad128, List.getD_eq_getElem?_getD, List.getElem?_take_of_lt p.isLt,
    List.getD_eq_getElem?_getD]

/-- HASH_UPDATE in a state that allows it, with its frame: only H, BUF, BUFBITS and STATUS change. -/
theorem hashUpdateWith_frame (p : HashParams) (n : Nat) (s : State) (h : s.status.hstate.accepts = true) :
    hashUpdateWith p n s = { s with
      h := (absorb p s (buffered s ++ chunk n s)).h
      buf := pad128 (leftOver (buffered s ++ chunk n s))
      bufbits := (leftOver (buffered s ++ chunk n s)).length
      status := s.status.hashDone .accum } := by
  rw [hashUpdateWith_eq p n s h, absorb_frame, absorb_buf, absorb_bufbits]

/-- Settles O43: the next state by `hashUpdateWith_frame`, the buffer's bits by `getLsbD_pad128`, the compressed block's
by `getLsbD_firstBlock`. -/
theorem hashUpdateAppendsTheChunk : Obligations.HashUpdateAppendsTheChunk := by
  refine ⟨fun nbits s hn hstate => ?_, fun nbits s hn hstate =>
    wrongStateHashCommandsAreRejected s _ hstate (.inr ⟨nbits, hn, rfl⟩)⟩
  have haccepts := (accepts_iff _).2 hstate
  refine ⟨pad128 (leftOver (buffered s ++ chunk nbits.toNat s)),
    (absorb Config.hash s (buffered s ++ chunk nbits.toNat s)).h, ?_⟩
  intro bits d str left
  have hstr : buffered s ++ chunk nbits.toNat s = str := by
    rw [buffered, chunk, bitsOf_eq_ofFn, bitsOf_eq_ofFn]
    rfl
  have hleft : leftOver str = left := rfl
  rw [hstr, hleft]
  refine ⟨?_, getLsbD_pad128 left, fun hlt => ?_, fun hge => ?_⟩
  · rw [exec_hashUpdate nbits s hn, hashUpdateWith_frame _ _ s haccepts, hstr]
    rfl
  · rw [absorb_h, if_neg (Nat.not_le.2 hlt)]
  · exact ⟨words (pad128 (str.take 128)), getLsbD_firstBlock str, by rw [absorb_h, if_pos hge]⟩

/-! ## HASH_FINAL: the padding block -/

/-- R205, R206: the padding block bit by bit. -/
theorem getLsbD_paddingBlock (s : State) (hb : s.bufbits ≤ 127) (p : Fin 128) :
    (paddingBlock s).cat.getLsbD (127 - p.val) =
      if p.val < s.bufbits then s.buf.getLsbD (127 - p.val) else decide (p.val = s.bufbits) := by
  have hlen : (buffered s).length = s.bufbits := by
    rw [buffered_length]
    omega
  rw [paddingBlock, cat_words, getLsbD_pad128, List.getD_eq_getElem?_getD]
  by_cases hp : p.val < s.bufbits
  · rw [if_pos hp, List.getElem?_append_left (by omega), buffered, List.getElem?_take_of_lt hp,
      bitsOf_getElem?_of_lt _ _ p.isLt, Option.getD_some]
  · rw [if_neg hp, List.getElem?_append_right (by omega), hlen, List.getElem?_singleton]
    by_cases heq : p.val = s.bufbits
    · simp [heq]
    · simp [heq, show p.val - s.bufbits ≠ 0 by omega]

/-- HASH_FINAL right after HASH_INIT: the empty message, whatever the state before (R205, R207). -/
theorem hashFinalWith_hashInitWith_h (p : HashParams) (s : State) :
    (hashFinalWith p (hashInitWith p s)).h =
      compress p (compress p p.initial ⟨0x80000000, 0, 0, 0⟩) ⟨0, 0, 0, 0⟩ := by
  rw [hashFinalWith_eq p (hashInitWith p s) rfl, paddingBlock_empty (hashInitWith p s) rfl]
  rfl

set_option maxRecDepth 1024 in
/-- 95_test_vectors.md section 2.9: the padding block of the empty message is compressed into HASH_IV, under P_TEST. The
recursion depth is that of `compress_trace`. -/
theorem compress_paddingBlock_trace :
    compress ⟨fun i => BitVec.ofNat 32 i.val, fun j => BitVec.ofNat 32 j.val⟩ ⟨0, 1, 2, 3, 4, 5, 6, 7⟩
        ⟨0x80000000, 0, 0, 0⟩ =
      ⟨0x1ca099c5, 0xfd4d2cbd, 0x6bffc973, 0x26f76e25, 0x46f3979f, 0x5faff9ee, 0xf57c9add, 0x50262a4c⟩ :=
  by decide

set_option maxRecDepth 1024 in
/-- R205's example, under P_TEST: its length block is compressed into the chaining value that the padding block leaves. -/
theorem compress_lengthBlock_trace :
    compress ⟨fun i => BitVec.ofNat 32 i.val, fun j => BitVec.ofNat 32 j.val⟩
        ⟨0x1ca099c5, 0xfd4d2cbd, 0x6bffc973, 0x26f76e25, 0x46f3979f, 0x5faff9ee, 0xf57c9add, 0x50262a4c⟩
        ⟨0, 0, 0, 0⟩ =
      ⟨0x40c36e78, 0x71a3f1a8, 0x8d5bd1a8, 0xfe134c9a, 0x1c14e5cb, 0xbf80ffa6, 0xd7b8e562, 0x75d705e0⟩ :=
  by decide

/-- Settles O44: the padding block by `getLsbD_paddingBlock`, the two compressions by `hashFinalWith_eq`, the example one
compression at a time. -/
theorem hashFinalCompressesPaddingThenLength : Obligations.HashFinalCompressesPaddingThenLength := by
  refine ⟨fun s hb hstate => ⟨paddingBlock s, getLsbD_paddingBlock s hb, paddingBlock_empty s, ?_⟩,
    fun s hstate => wrongStateHashCommandsAreRejected s _ hstate (.inl rfl), rfl, fun s => ?_⟩
  · rw [exec_hashFinal, hashFinalWith_eq _ s ((accepts_iff _).2 hstate)]
    rfl
  · intro p
    calc (hashFinalWith p (hashInitWith p s)).h
      _ = compress p (compress p p.initial ⟨0x80000000, 0, 0, 0⟩) ⟨0, 0, 0, 0⟩ := hashFinalWith_hashInitWith_h p s
      _ = compress p _ ⟨0, 0, 0, 0⟩ := congrArg (compress p · ⟨0, 0, 0, 0⟩) compress_paddingBlock_trace
      _ = _ := compress_lengthBlock_trace

/-! ## The HSTATE transitions -/

/-- Settles O47: the table by `exec_inv`, a case for each way a command can end; the blank cells by
`wrongStateHashCommandsAreRejected`; every other access by `step_status_inv`. -/
theorem hashStateTransitions : Obligations.HashStateTransitions := by
  refine ⟨fun s i hwf => ?_, fun s i hwf hstate hi => ?_, fun s t rest a hp ha h => ?_⟩
  · obtain ⟨t, ht⟩ := exists_exec i s
    refine ⟨t, ht, ?_⟩
    rcases exec_inv i s t ht with ⟨cause, rfl, hcause⟩ | ⟨rfl, rfl⟩ | ⟨v, rfl, -, rfl⟩ | ⟨bsz, o, hi, rfl⟩ | ⟨rfl, rfl⟩ |
      ⟨n, rfl, -, haccepts, rfl⟩ | ⟨rfl, haccepts, rfl⟩
    · rw [reject_status, status_reject_hstate]
      rcases hcause with ⟨-, v, rfl, -⟩ | ⟨-, n, rfl, hn⟩ | ⟨-, hi, haccepts⟩
      · rfl
      · exact absurd ((wf_hashUpdate n).1 hwf) hn
      · rcases hi with rfl | ⟨n, rfl⟩ <;>
        rcases (accepts_eq_false_iff _).1 haccepts with hs | hs <;>
        simp only [hs]
    · rfl
    · rfl
    · rcases hi with rfl | rfl | rfl | rfl | rfl | rfl | rfl | rfl | rfl | rfl <;> rfl
    · rfl
    · rcases (accepts_iff _).1 haccepts with hs | hs <;> simp only [hs] <;> rfl
    · rcases (accepts_iff _).1 haccepts with hs | hs <;> simp only [hs] <;> rfl
  · refine wrongStateHashCommandsAreRejected s i hstate (hi.imp_right ?_)
    rintro ⟨n, rfl⟩
    exact ⟨n, (wf_hashUpdate n).1 hwf, rfl⟩
  · rcases step_status_inv s t _ rest hp h with ⟨c, hc, -⟩ | ⟨v, -, hst⟩ | ⟨hreset, -⟩ | ⟨-, hst⟩
    · exact absurd (Input.access.inj hc) (ha c)
    · rw [hst, status_acknowledge_hstate]
    · cases hreset
    · rw [hst]

end Sys2Proof.Machine
end

section
/-! The hash commands beside the cipher (46_hash_streaming.md R210): what they do is the same whatever KEY, IV, DOUT, ROUNDS
and LAST_FAIL hold, and they leave these four registers, so a cipher command run between them does not show. -/

namespace Sys2Proof.Machine

/-! ## The commands on a state with other cipher registers -/

/-- A state with KEY, IV, DOUT and ROUNDS replaced: the registers that R210 names. -/
def State.withCipherRegs (s : State) (key iv dout : Words4) (rounds : BitVec 5) : State :=
  { s with key := key, iv := iv, dout := dout, rounds := rounds }

/-- A state with LAST_FAIL replaced, which every command writes and none reads (R23). -/
def State.withLastFail (s : State) (failed : Bool) : State := { s with status := { s.status with lastFail := failed } }

/-- The commands of R210. -/
def isHash (i : Instr) : Prop := i = .hashInit ∨ i = .hashFinal ∨ ∃ nbits, i = .hashUpdate nbits

section
variable (p : HashParams) (s : State) (key iv dout : Words4) (rounds : BitVec 5) (failed : Bool)

theorem reject_withCipherRegs (cause : Cause) :
    reject ((s.withLastFail failed).withCipherRegs key iv dout rounds) cause =
      (reject s cause).withCipherRegs key iv dout rounds := by
  cases cause <;> rfl

theorem hashInitWith_withCipherRegs :
    hashInitWith p ((s.withLastFail failed).withCipherRegs key iv dout rounds) =
      (hashInitWith p s).withCipherRegs key iv dout rounds := rfl

theorem hashFinalWith_withCipherRegs :
    hashFinalWith p ((s.withLastFail failed).withCipherRegs key iv dout rounds) =
      (hashFinalWith p s).withCipherRegs key iv dout rounds := by
  cases h : s.status.hstate.accepts with
  | true =>
    rw [hashFinalWith_eq p s h, hashFinalWith_eq]
    · rfl
    · exact h
  | false =>
    have hstate := (accepts_eq_false_iff _).1 h
    rw [hashFinalWith_of_rejected p s hstate, hashFinalWith_of_rejected, reject_withCipherRegs]
    exact hstate

theorem hashUpdateWith_withCipherRegs (n : Nat) :
    hashUpdateWith p n ((s.withLastFail failed).withCipherRegs key iv dout rounds) =
      (hashUpdateWith p n s).withCipherRegs key iv dout rounds := by
  cases h : s.status.hstate.accepts with
  | true =>
    rw [hashUpdateWith_frame p n s h, hashUpdateWith_frame, absorb_h, absorb_h]
    · rfl
    · exact h
  | false =>
    have hstate := (accepts_eq_false_iff _).1 h
    rw [hashUpdateWith_of_rejected p n s hstate, hashUpdateWith_of_rejected, reject_withCipherRegs]
    exact hstate

/-- R210: a hash command passes KEY, IV, DOUT and ROUNDS through, whatever they hold, and its effect on the rest does not
depend on them. -/
theorem exec_withCipherRegs (i : Instr) (t : State) (hi : isHash i) (h : exec i s = .next t) :
    exec i ((s.withLastFail failed).withCipherRegs key iv dout rounds) =
      .next (t.withCipherRegs key iv dout rounds) := by
  rcases hi with rfl | rfl | ⟨nbits, rfl⟩
  · cases h
    rw [exec_hashInit, hashInitWith_withCipherRegs]
  · cases h
    rw [exec_hashFinal, hashFinalWith_withCipherRegs]
  · by_cases hn : nbits.toNat ≤ 128
    · rw [exec_hashUpdate nbits _ hn] at h ⊢
      cases h
      rw [hashUpdateWith_withCipherRegs]
    · rw [exec, execHashUpdate, if_neg hn] at h ⊢
      cases h
      rw [reject_withCipherRegs]

end

/-! ## Hash commands and cipher commands -/

/-- R210, no write: a state is itself with its own cipher registers put in, so a hash command leaves these. -/
theorem exec_hash_keeps_cipherRegs (i : Instr) (s t : State) (hi : isHash i) (h : exec i s = .next t) :
    t.withCipherRegs s.key s.iv s.dout s.rounds = t :=
  (Host.Outcome.next.inj (h.symm.trans
    (exec_withCipherRegs s s.key s.iv s.dout s.rounds s.status.lastFail i t hi h))).symm

/-- Every cipher command completes in the frame of R150. -/
theorem exists_cipherDone (c : Instr) (bsz : BlockSize) (s : State) (hc : isCipher c bsz) :
    ∃ o, exec c s = .next (cipherDone s bsz o) := by
  rcases hc with rfl | rfl | rfl | rfl | rfl | rfl | rfl | rfl | rfl | rfl <;> exact ⟨_, rfl⟩

/-- What a cipher command changes is a DOUT and a LAST_FAIL (R150, R164). -/
theorem cipherDone_eq_withCipherRegs (s : State) (bsz : BlockSize) (o : Words4) :
    cipherDone s bsz o = (s.withLastFail false).withCipherRegs s.key s.iv (blockOf bsz o) s.rounds := rfl

/-- Settles O50: the first clause is `exec_withCipherRegs`; the second is the first at the registers that a cipher command
leaves. -/
theorem hashCommandsIgnoreTheCipherRegisters : Obligations.HashCommandsIgnoreTheCipherRegisters := by
  refine ⟨fun s key iv dout rounds failed i hi => ?_, fun s bsz c i hc hi => ?_⟩
  · obtain ⟨t, ht⟩ := exists_exec i s
    have hkeep := exec_hash_keeps_cipherRegs i s t hi ht
    obtain ⟨-, -, -, hkey, hiv, hdin⟩ := exec_frame i s t ht
    exact ⟨t, ht, hkey, hiv, (congrArg State.dout hkeep).symm, (congrArg State.rounds hkeep).symm, hdin,
      exec_withCipherRegs s key iv dout rounds failed i t hi ht⟩
  · obtain ⟨t, ht⟩ := exists_exec i s
    obtain ⟨o, ho⟩ := exists_cipherDone c bsz s hc
    refine ⟨t, cipherDone s bsz o, ht, ho, ?_⟩
    have hkeep := exec_hash_keeps_cipherRegs i s t hi ht
    calc exec i (cipherDone s bsz o)
      _ = .next (t.withCipherRegs s.key s.iv (blockOf bsz o) s.rounds) :=
        exec_withCipherRegs s s.key s.iv (blockOf bsz o) s.rounds false i t hi ht
      _ = .next { t.withCipherRegs s.key s.iv s.dout s.rounds with dout := (cipherDone s bsz o).dout } := rfl
      _ = .next { t with dout := (cipherDone s bsz o).dout } := by rw [hkeep]

end Sys2Proof.Machine
end

section
/-! The control commands (47_control.md R230, R231): NOP and SET_ROUNDS, what each leaves in STATUS, and, for every other
command, a state in which it changes more than NOP may. -/

namespace Sys2Proof.Machine

/-! ## The commands -/

/-- R230. -/
theorem exec_nop (s : State) : exec .nop s = .next (succeed s) := rfl

/-- R231, ROUNDVAL in range. -/
theorem exec_setRounds_of_legal (v : BitVec 8) (s : State) (h : roundvalLegal v = true) :
    exec (.setRounds v) s = .next (succeed { s with rounds := v.setWidth 5 }) :=
  if_pos h

/-- R231, ROUNDVAL out of range. -/
theorem exec_setRounds_of_illegal (v : BitVec 8) (s : State) (h : roundvalLegal v = false) :
    exec (.setRounds v) s = .next (reject s .cfgErr) :=
  if_neg (Bool.eq_false_iff.1 h)

/-- Format I (R81): the immediate is or-ed into the low byte. -/
theorem encodeI_eq_or (opc imm : BitVec 8) : encodeI opc imm = encodeI opc 0 ||| imm.setWidth 32 := by
  apply BitVec.eq_of_toNat_eq
  have himm : imm.toNat < 2 ^ 24 := imm.isLt.trans (by decide)
  have hopc : (encodeI opc 0).toNat = 2 ^ 24 * opc.toNat := by simp [encodeI_toNat, Nat.mul_comm]
  have hwide : (imm.setWidth 32).toNat = imm.toNat := BitVec.toNat_setWidth_of_le (by decide)
  calc (encodeI opc imm).toNat
    _ = 2 ^ 24 * opc.toNat + imm.toNat := by rw [encodeI_toNat, Nat.mul_comm]
    _ = 2 ^ 24 * opc.toNat ||| imm.toNat := Nat.two_pow_add_eq_or_of_lt himm opc.toNat
    _ = (encodeI opc 0 ||| imm.setWidth 32).toNat := by rw [BitVec.toNat_or, hopc, hwide]

/-! ## The word of STATUS -/

/-- R23: completing clears bit 0 of the word and keeps every other bit. -/
theorem word_succeed (st : Status) : st.succeed.word = st.word &&& 0xFFFFFFFE := by
  obtain ⟨lastFail, cmdErr, cfgErr, hashErr, hstate⟩ := st
  cases hstate <;> decide +revert

/-- R242, R243: a rejection with CFG_ERR sets bits 0 and 2 of the word and keeps every other bit. -/
theorem word_reject_cfgErr (st : Status) : (st.reject .cfgErr).word = st.word ||| 0x00000005 := by
  obtain ⟨lastFail, cmdErr, cfgErr, hashErr, hstate⟩ := st
  cases hstate <;> decide +revert

/-! ## Commands that change more than LAST_FAIL -/

/-- From s to t more than LAST_FAIL changes. -/
def changesMore (s t : State) : Prop := t ≠ s.withLastFail t.status.lastFail

/-- One part of the state that LAST_FAIL does not reach and that differs is enough. -/
theorem changesMore_of_ne {α : Type} (part : State → α) {s t : State}
    (hpart : part (s.withLastFail t.status.lastFail) = part s) (hne : part t ≠ part s) : changesMore s t :=
  fun h => hne ((congrArg part h).trans hpart)

/-- A rejection sets a sticky flag (R242) that is clear after reset (R42). -/
theorem changesMore_reject_reset (cause : Cause) : changesMore State.reset (reject State.reset cause) :=
  changesMore_of_ne (fun s => s.status.sticky cause) (by cases cause <;> rfl) (by cases cause <;> decide)

/-- HASH_INIT leaves IDLE (R201). -/
theorem changesMore_hashInit_reset (p : HashParams) : changesMore State.reset (hashInitWith p State.reset) :=
  changesMore_of_ne (fun s => s.status.hstate) rfl HState.noConfusion

/-- A legal round count (R29) other than the given one. -/
def otherRounds (n : BitVec 5) : BitVec 5 := if n = 9 then 10 else 9

theorem ne_otherRounds (n : BitVec 5) : n ≠ otherRounds n := by decide +revert

/-- An accepted SET_ROUNDS changes ROUNDS where it held another value (R231). -/
theorem exists_changesMore_setRounds (v : BitVec 8) (h : roundvalLegal v = true) :
    ∃ s t, exec (.setRounds v) s = .next t ∧ changesMore s t :=
  ⟨{ State.reset with rounds := otherRounds (v.setWidth 5) }, _, exec_setRounds_of_legal v _ h,
    changesMore_of_ne State.rounds rfl (ne_otherRounds _)⟩

/-- R150: a cipher command writes DOUT and does not read it. -/
theorem exec_cipher_ignores_dout (c : Instr) (bsz : BlockSize) (s : State) (d : Words4) (hc : isCipher c bsz) :
    exec c { s with dout := d } = exec c s := by
  rcases hc with rfl | rfl | rfl | rfl | rfl | rfl | rfl | rfl | rfl | rfl <;> rfl

theorem nontrivial_words4 : Nontrivial Words4 := ⟨⟨0, 0, 0, 0⟩, ⟨1, 0, 0, 0⟩, by decide⟩

/-- A cipher command changes DOUT where it held another block than the one the command writes. -/
theorem exists_changesMore_cipher (c : Instr) (bsz : BlockSize) (hc : isCipher c bsz) :
    ∃ s t, exec c s = .next t ∧ changesMore s t := by
  obtain ⟨o, ho⟩ := exists_cipherDone c bsz State.reset hc
  have := nontrivial_words4
  obtain ⟨d, hd⟩ := exists_ne (blockOf bsz o)
  exact ⟨{ State.reset with dout := d }, _, (exec_cipher_ignores_dout c bsz _ d hc).trans ho,
    changesMore_of_ne State.dout rfl hd.symm⟩

/-- R230: the commands other than NOP, a case for each way a command can end after reset. The hash commands that need
READY or ACCUM are rejected there, so they fall under the first case. -/
theorem exists_changesMore (i : Instr) (hi : i ≠ .nop) : ∃ s t, exec i s = .next t ∧ changesMore s t := by
  obtain ⟨t, ht⟩ := exists_exec i State.reset
  rcases exec_inv i State.reset t ht with ⟨cause, rfl, -⟩ | ⟨rfl, -⟩ | ⟨v, rfl, hv, -⟩ | ⟨bsz, -, hc, -⟩ | ⟨-, rfl⟩ |
    ⟨-, -, -, haccepts, -⟩ | ⟨-, haccepts, -⟩
  · exact ⟨State.reset, _, ht, changesMore_reject_reset cause⟩
  · exact absurd rfl hi
  · exact exists_changesMore_setRounds v hv
  · exact exists_changesMore_cipher i bsz hc
  · exact ⟨State.reset, _, ht, changesMore_hashInit_reset Config.hash⟩
  · cases haccepts
  · cases haccepts

/-! ## The obligations -/

/-- Settles O38: NOP by `exec_nop`, its illegal neighbours by `decodeZ_error_iff`, the other commands by
`exists_changesMore`. -/
theorem nopClearsLastFailOnly : Obligations.NopClearsLastFailOnly := by
  refine ⟨exec_nop, rfl, fun c hopc hbits => ?_, fun s hword => ⟨succeed s, exec_nop s, ?_⟩,
    fun i _ hi => exists_changesMore i hi⟩
  · have hd : decode c = decodeZ c .nop := if_pos hopc
    rw [hd]
    exact (decodeZ_error_iff c .nop).2 hbits
  · rw [succeed_status, word_succeed, hword]
    rfl

/-- Settles O39: the two clauses by `exec_setRounds_of_legal` and `exec_setRounds_of_illegal`, the example by what each
does to the word of STATUS. -/
theorem setRoundsStoresLegalValuesOnly : Obligations.SetRoundsStoresLegalValuesOnly := by
  refine ⟨fun v s hlo hhi => ⟨v.setWidth 5, roundval_setWidth v hhi,
      exec_setRounds_of_legal v s ((roundvalLegal_iff v).2 ⟨hlo, hhi⟩)⟩,
    fun v s h => exec_setRounds_of_illegal v s ((roundvalLegal_eq_false_iff v).2 h),
    fun v => ⟨encodeI_eq_or 0x01 v, decode_encode (.setRounds v) rfl⟩, fun s hrounds hword => ?_⟩
  have hreject : (s.status.reject .cfgErr).word = 0x00000005 := by
    rw [word_reject_cfgErr, hword]
    rfl
  refine ⟨reject s .cfgErr, _, exec_setRounds_of_illegal 30 s rfl, hrounds, hreject,
    exec_setRounds_of_legal 22 _ rfl, rfl, ?_⟩
  rw [succeed_status, word_succeed, reject_status, hreject]
  rfl

end Sys2Proof.Machine
end

section
/-! Command words and the port once more (30_encoding.md R86 to R88; 20_memory.md R60 to R63; 60_exceptions.md R242, R246;
70_reset_and_hazards.md R260): decode and encode, the register map, what a register reads as after a write, the step for
each kind of input, and what a rejection leaves. -/

namespace Sys2Proof.Machine

/-! ## Command words -/

/-- Settles O1: a case for each constructor, in `decode_encode`. -/
theorem decodeOfEncodeIsTheCommand : Obligations.DecodeOfEncodeIsTheCommand :=
  decode_encode

/-- Settles O2: a case for each value of OPC, in `encode_of_decode`. -/
theorem legalWordIsEncodingOfItsCommand : Obligations.LegalWordIsEncodingOfItsCommand :=
  encode_of_decode

/-- Settles O5: the eighteen words, each decoded by evaluation. -/
theorem sampleWordsDecodeAsTheSpecSays : Obligations.SampleWordsDecodeAsTheSpecSays := by
  unfold Obligations.SampleWordsDecodeAsTheSpecSays
  decide

/-- R83, R89: the word of HASH_UPDATE with NBITS above 128 is illegal. -/
theorem decode_encodeI_hashUpdate_of_gt (n : BitVec 8) (hn : 128 < n.toNat) :
    decode (encodeI 0x21 n) = .error .nbits := by
  obtain ⟨hopc, hzero, himm⟩ := (encodeI_eq_iff 0x21 n _).1 rfl
  rw [decode_of_opc_hashUpdate _ hopc, decodeHashUpdate, if_pos hzero, himm, if_neg (Nat.not_le.2 hn)]

/-- Settles O46: the word is refused by the decoder, whatever HSTATE is; the term, by `exec` itself. -/
theorem encodingErrorComesBeforeHashState : Obligations.EncodingErrorComesBeforeHashState := by
  refine ⟨fun s rest nbits hn hp => ?_, fun s nbits hn => if_neg (Nat.not_le.2 hn)⟩
  have hword : (0x21000000 ||| nbits.setWidth 32 : Word) = encodeI 0x21 nbits := (encodeI_eq_or 0x21 nbits).symm
  rw [hword] at hp
  exact step_illegalWord s rest _ .nbits hp (decode_encodeI_hashUpdate_of_gt nbits hn)

/-! ## The register window -/

/-- Settles O14: the register at an offset by `regAt_eq_some`, the offsets that have one by `exists_reg_offset_iff`. -/
theorem registerMapIsOneToOne : Obligations.RegisterMapIsOneToOne := by
  refine ⟨regAt_eq_some, fun off => ?_, rfl, rfl, rfl, rfl, rfl, fun _ => rfl, fun _ => ⟨rfl, rfl, rfl, rfl⟩⟩
  simp only [regAt_eq_some, exists_reg_offset_iff]
  omega

/-- R63: an access that breaks a condition is a bus error that names its offset. -/
theorem checkAccess_of_breaksRule (a : Access) (h : a.breaksRule) : checkAccess a = .error (.busError a.offset) := by
  cases ha : checkAccess a with
  | error f => rw [checkAccess_error_offset a f ha]
  | ok ra => exact absurd h ((checkAccess_ok_iff a).1 ⟨ra, ha⟩)

/-- Settles O15: such an address is at an offset below 0x00 or above 0x7F. -/
theorem addressOutsideTheWindowIsBusError : Obligations.AddressOutsideTheWindowIsBusError := by
  refine ⟨Nat.mul_mod_right _ _, fun addr width v haddr => ?_⟩
  have hoff : windowOffset addr < 0x00 ∨ 0x7F < windowOffset addr := by
    unfold windowOffset
    omega
  exact ⟨checkAccess_of_breaksRule _ (.inr (.inr (hoff.imp_right .inl))),
    checkAccess_of_breaksRule _ (.inr (.inr (hoff.imp_right .inl)))⟩

/-- A data register reads back what was written to it. -/
theorem readReg_writeReg_same (s : State) (r : Reg) (v : Word) (hw : r.writable = true) (hcmd : r ≠ .cmd)
    (hstatus : r ≠ .status) : readReg (writeReg s r v) r = some v := by
  cases r with
  | key i | iv i | din i => simp [readReg, writeReg]
  | msglenLo | msglenHi => rfl
  | cmd => exact absurd rfl hcmd
  | status => exact absurd rfl hstatus
  | rounds | dout _ | h _ => cases hw

/-- A register write shows in no other register. -/
theorem readReg_writeReg_of_ne (s : State) (r r' : Reg) (v : Word) (hne : r' ≠ r) :
    readReg (writeReg s r v) r' = readReg s r' := by
  cases r with
  | key i =>
    cases r' with
    | key j => simp [readReg, writeReg, show j ≠ i from fun h => hne (congrArg Reg.key h)]
    | _ => rfl
  | iv i =>
    cases r' with
    | iv j => simp [readReg, writeReg, show j ≠ i from fun h => hne (congrArg Reg.iv h)]
    | _ => rfl
  | din i =>
    cases r' with
    | din j => simp [readReg, writeReg, show j ≠ i from fun h => hne (congrArg Reg.din h)]
    | _ => rfl
  | status =>
    cases r' with
    | status => exact absurd rfl hne
    | _ => rfl
  | msglenLo =>
    cases r' with
    | msglenLo => exact absurd rfl hne
    | _ => rfl
  | msglenHi =>
    cases r' with
    | msglenHi => exact absurd rfl hne
    | _ => rfl
  | cmd | rounds | dout _ | h _ => rfl

/-- Settles O13. -/
theorem writeThenReadWindow : Obligations.WriteThenReadWindow := by
  intro s r r' v hw hcmd hstatus _
  split
  case isTrue heq => rw [heq, readReg_writeReg_same s r v hw hcmd hstatus]
  case isFalse hne => exact readReg_writeReg_of_ne s r r' v hne

/-- Settles O10: each clause is `step_registerWrite` at its register. -/
theorem dataRegisterWriteStoresTheValue : Obligations.DataRegisterWriteStoresTheValue := fun s rest v =>
  ⟨fun i => step_registerWrite s rest (.key i) v rfl (by simp), fun i => step_registerWrite s rest (.iv i) v rfl (by simp),
    fun i => step_registerWrite s rest (.din i) v rfl (by simp), step_registerWrite s rest .msglenLo v rfl (by simp),
    step_registerWrite s rest .msglenHi v rfl (by simp)⟩

/-! ## One step for each kind of input -/

/-- Settles O8. -/
theorem idleStepChangesNothing : Obligations.IdleStepChangesNothing := by
  intro s hp
  simp only [step, nextInput, hp]

/-- Settles O7: an idle step stays, any other takes its input (`step_takes_input`). -/
theorem everyStepAnswersNext : Obligations.EveryStepAnswersNext := by
  intro s
  cases hp : s.pending with
  | nil => exact ⟨s, idleStepChangesNothing s hp⟩
  | cons inp rest =>
    obtain ⟨t, ht, -⟩ := step_takes_input s inp rest hp
    exact ⟨t, ht⟩

/-- R88: the CMD write of a legal word runs its command. -/
theorem runCommand_of_decode (c : Word) (i : Instr) (s : State) (h : decode c = .ok i) :
    runCommand c s = exec i s := by
  rw [runCommand, h]

/-- Settles O6: `step_command`, and every command has a next state (`exists_exec`). -/
theorem stepRunsTheDecodedCommand : Obligations.StepRunsTheDecodedCommand := by
  intro s rest c i hp hd
  obtain ⟨t, ht⟩ := exists_exec i { s with pending := rest }
  refine ⟨t, ht, ?_⟩
  rw [step_command s rest c hp, runCommand_of_decode c i _ hd, ht]
  rfl

/-- R260: the two ways a cut-off CMD write can end. -/
theorem cutOffResponse_done_or_error (n : Nat) : cutOffResponse n = .done ∨ ∃ f, cutOffResponse n = .error f := by
  unfold cutOffResponse
  split
  · exact .inl rfl
  · exact .inr ⟨_, rfl⟩

/-- Settles O20: both inputs put `State.reset` into the core; the answer of the second is `cutOffResponse`. -/
theorem resetInputRestoresTheResetState : Obligations.ResetInputRestoresTheResetState := fun s rest _ =>
  ⟨fun hp => step_cons s _ rest hp,
    fun hp => ⟨cutOffResponse s.freeUses, cutOffResponse_done_or_error _, step_cons s _ rest hp⟩⟩

/-! ## Rejection -/

/-- A command that leaves LAST_FAIL = 1 was rejected: every other way to end clears it (R23). -/
theorem exec_eq_reject_of_lastFail (i : Instr) (s t : State) (h : exec i s = .next t)
    (hfail : t.status.lastFail = true) : ∃ cause, t = reject s cause := by
  rcases exec_inv i s t h with ⟨cause, rfl, -⟩ | ⟨-, rfl⟩ | ⟨v, -, -, rfl⟩ | ⟨bsz, o, -, rfl⟩ | ⟨-, rfl⟩ |
    ⟨n, -, -, -, rfl⟩ | ⟨-, -, rfl⟩
  · exact ⟨cause, rfl⟩
  all_goals cases hfail

/-- The same of a CMD write, whether its word is legal or not. -/
theorem runCommand_eq_reject_of_lastFail (c : Word) (s t : State) (h : runCommand c s = .next t)
    (hfail : t.status.lastFail = true) : ∃ cause, t = reject s cause := by
  unfold runCommand at h
  split at h
  · exact exec_eq_reject_of_lastFail _ s t h hfail
  · cases h
    exact ⟨.cmdErr, rfl⟩

/-- Settles O57: a rejection writes STATUS only, and the port then answers the write with no error. -/
theorem rejectionChangesStatusOnly : Obligations.RejectionChangesStatusOnly := by
  intro s t rest c hp h hfail
  obtain ⟨u, hu, -⟩ := exists_runCommand c { s with pending := rest }
  rw [step_command s rest c hp, hu] at h
  cases h
  obtain ⟨cause, rfl⟩ := runCommand_eq_reject_of_lastFail c _ u hu hfail
  exact ⟨rfl, cause, by cases cause <;> rfl⟩

end Sys2Proof.Machine
end

section
/-! What a step can change (10_state.md R29 to R35, R39, R42): the ways a step can touch the core's registers and the hidden
buffer, who may write each of them, and the two invariants that every step keeps. -/

namespace Sys2Proof.Machine

/-! ## The core after a step -/

/-- What no register write reaches: the result registers ROUNDS, DOUT and H, the hidden buffer with its bit count, and
HSTATE. -/
def State.results (s : State) : BitVec 5 × Words4 × Words8 × BitVec 128 × Nat × HState :=
  (s.rounds, s.dout, s.h, s.buf, s.bufbits, s.status.hstate)

theorem results_eq_iff (s t : State) :
    t.results = s.results ↔
      t.rounds = s.rounds ∧ t.dout = s.dout ∧ t.h = s.h ∧ t.buf = s.buf ∧ t.bufbits = s.bufbits ∧
        t.status.hstate = s.status.hstate := by
  simp only [State.results, Prod.mk.injEq]

theorem writeReg_results (s : State) (r : Reg) (v : Word) : (writeReg s r v).results = s.results := by
  cases r <;> rfl

theorem reject_results (s : State) (cause : Cause) : (reject s cause).results = s.results := by
  cases cause <;> rfl

/-- A step with an input resets the core, runs a command, or leaves the results as they are. -/
theorem step_results_inv (s t : State) (inp : Input) (rest : List Input) (hp : s.pending = inp :: rest)
    (h : step s = .next t) :
    (inp.resets = true ∧ t.results = State.reset.results) ∨
    (∃ c i u, inp = commandWrite c ∧ decode c = .ok i ∧ exec i { s with pending := rest } = .next u ∧
      t = respond u .done) ∨
    t.results = s.results := by
  rcases step_inv s t inp rest hp h with ⟨a, f, -, -, rfl⟩ | ⟨r, v, -, -, rfl⟩ | ⟨r, v, -, -, -, rfl⟩ |
    ⟨c, why, -, -, rfl⟩ | hexec | ⟨rfl, rfl⟩ | ⟨c, rfl, rfl⟩
  · exact .inr (.inr rfl)
  · exact .inr (.inr rfl)
  · exact .inr (.inr (writeReg_results { s with pending := rest } r v))
  · exact .inr (.inr rfl)
  · exact .inr (.inl hexec)
  · exact .inl ⟨rfl, rfl⟩
  · exact .inl ⟨rfl, rfl⟩

/-- Packaged once for the invariants: what a state's results decide, what holds after reset, and what every command keeps
is kept by every step. -/
theorem step_keeps (P : State → Prop) (hcongr : ∀ s t, t.results = s.results → P s → P t) (hreset : P State.reset)
    (hexec : ∀ i s t, exec i s = .next t → P s → P t) (s t : State) (hs : P s) (h : step s = .next t) : P t := by
  cases hp : s.pending with
  | nil =>
    rw [idleStepChangesNothing s hp] at h
    cases h
    exact hs
  | cons inp rest =>
    rcases step_results_inv s t inp rest hp h with ⟨-, hsame⟩ | ⟨c, i, u, -, -, hu, rfl⟩ | hsame
    · exact hcongr _ t hsame hreset
    · have hu' : P u := hexec i _ u hu (hcongr s _ rfl hs)
      exact hcongr u _ rfl hu'
    · exact hcongr s t hsame hs

/-! ## ROUNDS and the buffer stay legal -/

theorem inv_of_results_eq (s t : State) (h : t.results = s.results) (hs : s.Inv) : t.Inv := by
  obtain ⟨hrounds, -, -, hbuf, hbits, -⟩ := (results_eq_iff s t).1 h
  simpa only [State.Inv, State.roundsLegal, State.bufbitsLegal, State.bufPadded, hrounds, hbuf, hbits] using hs

/-- R203: what is left of two strings, of at most 127 and at most 128 bits, is less than a block. -/
theorem length_leftOver_le (t : List Bool) (h : t.length ≤ 255) : (leftOver t).length ≤ 127 := by
  unfold leftOver
  split
  · rw [List.length_drop]
    omega
  · omega

/-- R39 after HASH_UPDATE: the buffer holds what is left of its own bits and the chunk's, padded. -/
theorem absorb_buffer_legal (p : HashParams) (s : State) (n : Nat) (hb : s.bufbitsLegal) :
    (absorb p s (buffered s ++ chunk n s)).bufbitsLegal ∧ (absorb p s (buffered s ++ chunk n s)).bufPadded := by
  have hlen : (buffered s ++ chunk n s).length ≤ 255 := by
    rw [List.length_append, buffered_length, chunk_length]
    omega
  constructor
  · rw [State.bufbitsLegal, absorb_bufbits]
    exact length_leftOver_le _ hlen
  · rw [State.bufPadded, absorb_buf, absorb_bufbits]
    exact pad128_shiftLeft_length _

theorem exec_keeps_inv (i : Instr) (s t : State) (h : exec i s = .next t) (hs : s.Inv) : t.Inv := by
  obtain ⟨hrounds, hbits, hpadded⟩ := hs
  rcases exec_inv i s t h with ⟨cause, rfl, -⟩ | ⟨-, rfl⟩ | ⟨v, -, hv, rfl⟩ | ⟨bsz, o, -, rfl⟩ | ⟨-, rfl⟩ |
    ⟨n, -, -, -, rfl⟩ | ⟨-, -, rfl⟩
  · exact ⟨hrounds, hbits, hpadded⟩
  · exact ⟨hrounds, hbits, hpadded⟩
  · obtain ⟨hmin, hmax⟩ := (roundvalLegal_iff v).1 hv
    have hval := roundval_setWidth v hmax
    exact ⟨⟨hmin.trans hval.ge, hval.le.trans hmax⟩, hbits, hpadded⟩
  · exact ⟨hrounds, hbits, hpadded⟩
  · exact ⟨hrounds, Nat.zero_le _, BitVec.zero_shiftLeft _⟩
  · obtain ⟨hbits', hpadded'⟩ := absorb_buffer_legal Config.hash s n.toNat hbits
    refine ⟨?_, hbits', hpadded'⟩
    rw [absorb_frame]
    exact hrounds
  · exact ⟨hrounds, Nat.zero_le _, BitVec.zero_shiftLeft _⟩

/-- Settles O59: ROUNDS by `roundsReset_legal`, and the buffer is empty. -/
theorem resetStateIsLegal : Obligations.ResetStateIsLegal :=
  ⟨roundsReset_legal, Nat.zero_le _, BitVec.zero_shiftLeft _⟩

/-- Settles O58: reset by `resetStateIsLegal`, each command by `exec_keeps_inv`. -/
theorem everyStepKeepsRoundsAndBufferLegal : Obligations.EveryStepKeepsRoundsAndBufferLegal :=
  step_keeps State.Inv inv_of_results_eq resetStateIsLegal exec_keeps_inv

/-! ## The buffer is empty outside ACCUM -/

theorem bufEmptyOutsideAccum_of_results_eq (s t : State) (h : t.results = s.results) (hs : s.bufEmptyOutsideAccum) :
    t.bufEmptyOutsideAccum := by
  obtain ⟨-, -, -, hbuf, hbits, hstate⟩ := (results_eq_iff s t).1 h
  simpa only [State.bufEmptyOutsideAccum, hbuf, hbits, hstate] using hs

theorem exec_keeps_bufEmptyOutsideAccum (i : Instr) (s t : State) (h : exec i s = .next t)
    (hs : s.bufEmptyOutsideAccum) : t.bufEmptyOutsideAccum := by
  rcases exec_inv i s t h with ⟨cause, rfl, -⟩ | ⟨-, rfl⟩ | ⟨v, -, -, rfl⟩ | ⟨bsz, o, -, rfl⟩ | ⟨-, rfl⟩ |
    ⟨n, -, -, -, rfl⟩ | ⟨-, -, rfl⟩
  · exact bufEmptyOutsideAccum_of_results_eq s _ (reject_results s cause) hs
  · exact hs
  · exact hs
  · exact hs
  · exact fun _ => ⟨rfl, rfl⟩
  · exact fun hne => absurd rfl hne
  · exact fun _ => ⟨rfl, rfl⟩

/-- Settles O60: reset leaves the buffer empty, each command by `exec_keeps_bufEmptyOutsideAccum`. -/
theorem bufferStaysEmptyOutsideAccum : Obligations.BufferStaysEmptyOutsideAccum :=
  have hreset : State.reset.bufEmptyOutsideAccum := fun _ => ⟨rfl, rfl⟩
  ⟨hreset, step_keeps State.bufEmptyOutsideAccum bufEmptyOutsideAccum_of_results_eq hreset
    exec_keeps_bufEmptyOutsideAccum⟩

/-! ## Who writes each register -/

@[simp] theorem readReg_respond (s : State) (answer : Response) (r : Reg) :
    readReg (respond s answer) r = readReg s r := by
  cases r <;> rfl

@[simp] theorem readReg_setPending (s : State) (inputs : List Input) (r : Reg) :
    readReg { s with pending := inputs } r = readReg s r := by
  cases r <;> rfl

theorem readReg_reject (s : State) (cause : Cause) (r : Reg) (hr : r ≠ .status) :
    readReg (reject s cause) r = readReg s r := by
  cases r with
  | status => exact absurd rfl hr
  | _ => rfl

/-- Short of a reset, a window register other than STATUS takes a new value only by the host's own write of that value, or
by a command. -/
theorem step_readReg_change (s t : State) (inp : Input) (rest : List Input) (hp : s.pending = inp :: rest)
    (h : step s = .next t) (hreset : inp.resets = false) (r : Reg) (hr : r ≠ .status) (v : Word)
    (ht : readReg t r = some v) (hs : readReg s r ≠ some v) :
    inp = .access (.write r.offset 4 v) ∨
    ∃ c i u, inp = commandWrite c ∧ decode c = .ok i ∧ exec i { s with pending := rest } = .next u ∧
      t = respond u .done := by
  rcases step_inv s t inp rest hp h with ⟨a, f, -, -, rfl⟩ | ⟨_, _, -, -, rfl⟩ | ⟨r', v', rfl, hw, hcmd, rfl⟩ |
    ⟨c, why, -, -, rfl⟩ | hexec | ⟨rfl, -⟩ | ⟨c, rfl, -⟩
  · exact absurd (by simpa using ht) hs
  · exact absurd (by simpa using ht) hs
  · rw [readReg_respond] at ht
    by_cases heq : r = r'
    · subst heq
      rw [readReg_writeReg_same _ r v' hw hcmd hr] at ht
      cases ht
      exact .inl rfl
    · rw [readReg_writeReg_of_ne _ r' r v' heq] at ht
      exact absurd (by simpa using ht) hs
  · rw [readReg_respond, readReg_reject _ _ r hr] at ht
    exact absurd (by simpa using ht) hs
  · exact .inr hexec
  · cases hreset
  · cases hreset

/-- The operand registers that only the host writes: KEY, IV and DIN. -/
def Reg.isOperand : Reg → Bool
  | .key _ | .iv _ | .din _ => true
  | .cmd | .status | .rounds | .dout _ | .msglenLo | .msglenHi | .h _ => false

/-- No command writes an operand register (R30 to R32). -/
theorem exec_keeps_operand (i : Instr) (s u : State) (h : exec i s = .next u) (r : Reg) (hr : r.isOperand = true) :
    readReg u r = readReg s r := by
  obtain ⟨-, -, -, hkey, hiv, hdin⟩ := exec_frame i s u h
  cases r with
  | key j => simp only [readReg, hkey]
  | iv j => simp only [readReg, hiv]
  | din j => simp only [readReg, hdin]
  | _ => cases hr

/-- Short of a reset, an operand register takes a new value only by the host's own write of that value. -/
theorem step_operand_change (s t : State) (inp : Input) (rest : List Input) (hp : s.pending = inp :: rest)
    (h : step s = .next t) (hreset : inp.resets = false) (r : Reg) (hr : r.isOperand = true) (v : Word)
    (ht : readReg t r = some v) (hs : readReg s r ≠ some v) : inp = .access (.write r.offset 4 v) := by
  have hstatus : r ≠ .status := by
    rintro rfl
    cases hr
  rcases step_readReg_change s t inp rest hp h hreset r hstatus v ht hs with hwrite | ⟨c, i, u, -, -, hu, rfl⟩
  · exact hwrite
  · rw [readReg_respond, exec_keeps_operand i _ u hu r hr, readReg_setPending] at ht
    exact absurd ht hs

/-- Settles O55: `step_operand_change` at each word. -/
theorem operandRegistersChangeOnlyByHostWrites : Obligations.OperandRegistersChangeOnlyByHostWrites := by
  intro s t inp rest hp h hreset
  have hchange := step_operand_change s t inp rest hp h hreset
  exact ⟨fun j hne => hchange (.key j) rfl _ rfl fun heq => hne (Option.some.inj heq).symm,
    fun j hne => hchange (.iv j) rfl _ rfl fun heq => hne (Option.some.inj heq).symm,
    fun j hne => hchange (.din j) rfl _ rfl fun heq => hne (Option.some.inj heq).symm⟩

/-- What each command may change of the results: ROUNDS only SET_ROUNDS, DOUT only a cipher command, H and the buffer only a
hash command. -/
theorem exec_results_change (i : Instr) (s t : State) (h : exec i s = .next t) :
    (t.rounds ≠ s.rounds → ∃ v, i = .setRounds v ∧ v.toNat = t.rounds.toNat) ∧
    (t.dout ≠ s.dout → ∃ bsz, isCipher i bsz) ∧
    (t.h ≠ s.h ∨ t.buf ≠ s.buf ∨ t.bufbits ≠ s.bufbits → isHash i) := by
  rcases exec_inv i s t h with ⟨cause, rfl, -⟩ | ⟨-, rfl⟩ | ⟨v, hi, hv, rfl⟩ | ⟨bsz, o, hi, rfl⟩ | ⟨hi, rfl⟩ |
    ⟨n, hi, -, -, rfl⟩ | ⟨hi, -, rfl⟩
  · simp
  · simp
  · obtain ⟨-, hmax⟩ := (roundvalLegal_iff v).1 hv
    exact ⟨fun _ => ⟨v, hi, (roundval_setWidth v hmax).symm⟩, by simp, by simp⟩
  · exact ⟨by simp, fun _ => ⟨bsz, hi⟩, by simp⟩
  · exact ⟨by simp, by simp, fun _ => .inl hi⟩
  · rw [absorb_frame]
    exact ⟨fun hne => absurd rfl hne, fun hne => absurd rfl hne, fun _ => .inr (.inr ⟨n, hi⟩)⟩
  · exact ⟨fun hne => absurd rfl hne, fun hne => absurd rfl hne, fun _ => .inr (.inl hi)⟩

/-- A command leaves both halves of MSGLEN, or it is HASH_INIT and makes them 0 (R34, R201). -/
theorem exec_msglen_change (i : Instr) (s t : State) (h : exec i s = .next t) :
    (t.msglenLo = s.msglenLo ∧ t.msglenHi = s.msglenHi) ∨ (i = .hashInit ∧ t.msglenLo = 0 ∧ t.msglenHi = 0) := by
  rcases exec_inv i s t h with ⟨cause, rfl, -⟩ | ⟨-, rfl⟩ | ⟨v, -, -, rfl⟩ | ⟨bsz, o, -, rfl⟩ | ⟨hi, rfl⟩ |
    ⟨n, -, -, -, rfl⟩ | ⟨-, -, rfl⟩
  case inr.inr.inr.inr.inl => exact .inr ⟨hi, rfl, rfl⟩
  case inr.inr.inr.inr.inr.inl =>
    rw [absorb_frame]
    exact .inl ⟨rfl, rfl⟩
  all_goals exact .inl ⟨rfl, rfl⟩

/-- The input ran a command that has this property. -/
def ran (inp : Input) (P : Instr → Prop) : Prop :=
  ∃ c i, inp = .access (.write 0x00 4 c) ∧ decode c = .ok i ∧ P i

/-- Short of a reset, a step whose results differ ran a command, and differs as that command may. -/
theorem step_results_change (s t : State) (inp : Input) (rest : List Input) (hp : s.pending = inp :: rest)
    (h : step s = .next t) (hreset : inp.resets = false) :
    (t.rounds ≠ s.rounds → ran inp fun i => ∃ v, i = .setRounds v ∧ v.toNat = t.rounds.toNat) ∧
    (t.dout ≠ s.dout → ran inp fun i => ∃ bsz, isCipher i bsz) ∧
    (t.h ≠ s.h ∨ t.buf ≠ s.buf ∨ t.bufbits ≠ s.bufbits → ran inp isHash) := by
  rcases step_results_inv s t inp rest hp h with ⟨hresets, -⟩ | ⟨c, i, u, hinp, hd, hu, rfl⟩ | hsame
  · rw [hreset] at hresets
    cases hresets
  · obtain ⟨hrounds, hdout, hhash⟩ := exec_results_change i _ u hu
    exact ⟨fun hne => ⟨c, i, hinp, hd, hrounds hne⟩, fun hne => ⟨c, i, hinp, hd, hdout hne⟩,
      fun hne => ⟨c, i, hinp, hd, hhash hne⟩⟩
  · obtain ⟨hrounds, hdout, hh, hbuf, hbits, -⟩ := (results_eq_iff s t).1 hsame
    simp [hrounds, hdout, hh, hbuf, hbits]

/-- Short of a reset, a half of MSGLEN takes a new value only by the host's write of that value, or by HASH_INIT, which
makes it 0. -/
theorem step_msglen_change (s t : State) (inp : Input) (rest : List Input) (hp : s.pending = inp :: rest)
    (h : step s = .next t) (hreset : inp.resets = false) (r : Reg) (hr : r = .msglenLo ∨ r = .msglenHi) (v : Word)
    (ht : readReg t r = some v) (hs : readReg s r ≠ some v) :
    inp = .access (.write r.offset 4 v) ∨ (v = 0 ∧ ran inp fun i => i = .hashInit) := by
  have hstatus : r ≠ .status := by
    rintro rfl
    simp at hr
  rcases step_readReg_change s t inp rest hp h hreset r hstatus v ht hs with hwrite | ⟨c, i, u, hinp, hd, hu, rfl⟩
  · exact .inl hwrite
  · rcases exec_msglen_change i _ u hu with ⟨hlo, hhi⟩ | ⟨hi, hlo, hhi⟩
    · refine absurd (ht.symm.trans ?_).symm hs
      rcases hr with rfl | rfl <;> simp [readReg, hlo, hhi]
    · refine .inr ⟨Option.some.inj (ht.symm.trans ?_), c, i, hinp, hd, hi⟩
      rcases hr with rfl | rfl <;> simp [readReg, hlo, hhi]

/-- Settles O56: ROUNDS, DOUT, H and the buffer by `step_results_change`, MSGLEN by `step_msglen_change`. -/
theorem resultRegistersChangeOnlyByTheirCommands : Obligations.ResultRegistersChangeOnlyByTheirCommands := by
  intro s t inp rest hp h hreset
  obtain ⟨hrounds, hdout, hhash⟩ := step_results_change s t inp rest hp h hreset
  have hmsglen := step_msglen_change s t inp rest hp h hreset
  exact ⟨hrounds, hdout, fun hne => hmsglen .msglenLo (.inl rfl) _ rfl fun heq => hne (Option.some.inj heq).symm,
    fun hne => hmsglen .msglenHi (.inr rfl) _ rfl fun heq => hne (Option.some.inj heq).symm, hhash⟩

end Sys2Proof.Machine
end

section
/-! Inferences of the spec about the round primitives (40_round_primitives.md): MixColumn is linear (section 2), and the
permutation R105 for every mask, by where its cursors stand. -/

namespace Sys2Proof.Machine

/-! ## MixColumn is linear -/

/-- The reduction of a carry, of two carries that meet. -/
theorem reduce_xor (p q : Bool) (c : Byte) :
    (if p ^^ q then c else 0) = (if p then c else 0) ^^^ (if q then c else 0) := by
  cases p <;> cases q <;> simp

theorem mul2_xor (a b : Byte) : mul2 (a ^^^ b) = mul2 a ^^^ mul2 b := by
  rw [mul2, mul2, mul2, BitVec.shiftLeft_xor_distrib, BitVec.getLsbD_xor, reduce_xor]
  ac_rfl

theorem mul3_xor (a b : Byte) : mul3 (a ^^^ b) = mul3 a ^^^ mul3 b := by
  rw [mul3, mul3, mul3, mul2_xor]
  ac_rfl

theorem byteLane_xor (x y : Word) (j : Nat) : byteLane (x ^^^ y) j = byteLane x j ^^^ byteLane y j :=
  BitVec.extractLsb'_xor

/-- A sum of four sums, summed column by column. -/
theorem xor4_xor_xor4 (a0 a1 a2 a3 b0 b1 b2 b3 : Byte) :
    (a0 ^^^ b0) ^^^ (a1 ^^^ b1) ^^^ (a2 ^^^ b2) ^^^ (a3 ^^^ b3) =
      (a0 ^^^ a1 ^^^ a2 ^^^ a3) ^^^ (b0 ^^^ b1 ^^^ b2 ^^^ b3) := by
  ac_rfl

theorem append4_xor (a0 a1 a2 a3 b0 b1 b2 b3 : Byte) :
    ((a0 ^^^ b0) ++ (a1 ^^^ b1) ++ (a2 ^^^ b2) ++ (a3 ^^^ b3) : BitVec 32) =
      (a0 ++ a1 ++ a2 ++ a3) ^^^ (b0 ++ b1 ++ b2 ++ b3) := by
  rw [BitVec.xor_append, BitVec.xor_append, BitVec.xor_append]

theorem mixColumn_xor (x y : Word) : mixColumn (x ^^^ y) = mixColumn x ^^^ mixColumn y := by
  simp only [mixColumn, byteLane_xor, mul2_xor, mul3_xor, xor4_xor_xor4, append4_xor]

/-- Settles O24. -/
theorem mixColumnIsLinear : Obligations.MixColumnIsLinear :=
  ⟨mixColumn_xor, by decide⟩

/-! ## Where the cursors of the permutation stand -/

/-- The bit of the input that output bit k comes from (R104). -/
def cursor {n : Nat} (m : BitVec n) (k : Nat) : Nat := if m.getLsbD k then highCursor m k else lowCursor m k

theorem getLsbD_permute_cursor {n : Nat} (x m : BitVec n) (k : Nat) (hk : k < n) :
    (permute x m).getLsbD k = x.getLsbD (cursor m k) := by
  rw [getLsbD_permute x m k hk, cursorBit, cursor]
  exact (apply_ite x.getLsbD _ _ _).symm

/-- How many mask bits below k are 1. -/
def onesBelow {n : Nat} (m : BitVec n) (k : Nat) : Nat := (List.range k).countP fun j => m.getLsbD j

theorem highCursor_eq {n : Nat} (m : BitVec n) (k : Nat) : highCursor m k = n - 1 - onesBelow m k := rfl

/-- The bits below k are 1 or 0. -/
theorem onesBelow_add_lowCursor {n : Nat} (m : BitVec n) (k : Nat) : onesBelow m k + lowCursor m k = k := by
  have h := List.length_eq_countP_add_countP (fun j => m.getLsbD j) (l := List.range k)
  rw [List.length_range] at h
  simpa [onesBelow, lowCursor] using h.symm

theorem countP_range_eq_count (p : Nat → Bool) (k : Nat) : (List.range k).countP p = Nat.count (fun j => p j = true) k := by
  simp only [Nat.count, Bool.decide_eq_true]

/-- A 1 bit at k is counted at every later place. -/
theorem onesBelow_lt {n : Nat} (m : BitVec n) {k k' : Nat} (h : k < k') (hk : m.getLsbD k = true) :
    onesBelow m k < onesBelow m k' := by
  rw [onesBelow, onesBelow, countP_range_eq_count, countP_range_eq_count]
  exact Nat.count_strict_mono hk h

/-- A 0 bit at k is counted at every later place. -/
theorem lowCursor_lt {n : Nat} (m : BitVec n) {k k' : Nat} (h : k < k') (hk : m.getLsbD k = false) :
    lowCursor m k < lowCursor m k' := by
  rw [lowCursor, lowCursor, countP_range_eq_count, countP_range_eq_count]
  exact Nat.count_strict_mono (by simp [hk]) h

theorem cursor_lt {n : Nat} (m : BitVec n) (k : Nat) (hk : k < n) : cursor m k < n := by
  have hsum := onesBelow_add_lowCursor m k
  rw [cursor, highCursor_eq]
  split <;> omega

/-- The two cursors never read the same bit. -/
theorem cursor_ne_of_lt {n : Nat} (m : BitVec n) {k k' : Nat} (h : k < k') (hk' : k' < n) :
    cursor m k ≠ cursor m k' := by
  have hsum := onesBelow_add_lowCursor m k
  have hsum' := onesBelow_add_lowCursor m k'
  rw [cursor, cursor, highCursor_eq, highCursor_eq]
  cases hk : m.getLsbD k
  case' true => have hlt := onesBelow_lt m h hk
  case' false => have hlt := lowCursor_lt m h hk
  all_goals
    cases m.getLsbD k' <;> simp <;> omega

theorem cursor_injOn {n : Nat} (m : BitVec n) (k k' : Nat) (hk : k < n) (hk' : k' < n)
    (h : cursor m k = cursor m k') : k = k' := by
  rcases Nat.lt_trichotomy k k' with hlt | heq | hgt
  · exact absurd h (cursor_ne_of_lt m hlt hk')
  · exact heq
  · exact absurd h.symm (cursor_ne_of_lt m hgt hk)

/-- The cursor as a map on the places of the word. -/
def place {n : Nat} (m : BitVec n) (k : Fin n) : Fin n := ⟨cursor m k.val, cursor_lt m k.val k.isLt⟩

theorem place_injective {n : Nat} (m : BitVec n) : Function.Injective (place m) := fun k k' h =>
  Fin.ext (cursor_injOn m k.val k'.val k.isLt k'.isLt (congrArg Fin.val h))

/-- Every input bit is read: n places read n different ones. -/
theorem exists_cursor_eq {n : Nat} (m : BitVec n) (i : Nat) (hi : i < n) : ∃ k, k < n ∧ cursor m k = i := by
  obtain ⟨k, hk⟩ := Finite.surjective_of_injective (place_injective m) ⟨i, hi⟩
  exact ⟨k.val, k.isLt, congrArg Fin.val hk⟩

/-! ## The permutation for every mask -/

theorem permute_injective {n : Nat} (m : BitVec n) : Function.Injective fun x : BitVec n => permute x m := by
  intro x y h
  apply BitVec.eq_of_getLsbD_eq
  intro i hi
  obtain ⟨k, hk, rfl⟩ := exists_cursor_eq m i hi
  rw [← getLsbD_permute_cursor x m k hk, ← getLsbD_permute_cursor y m k hk]
  exact congrArg (BitVec.getLsbD · k) h

/-- Settles O26: the words of a width are finitely many. -/
theorem permuteIsBijectiveForEveryMask : Obligations.PermuteIsBijectiveForEveryMask := fun _ m =>
  Finite.injective_iff_bijective.1 (permute_injective m)

/-- With no 1 bits the low cursor walks through the word. -/
theorem cursor_zero {n : Nat} (k : Nat) : cursor (0 : BitVec n) k = k := by
  have hsum := onesBelow_add_lowCursor (0 : BitVec n) k
  have hones : onesBelow (0 : BitVec n) k = 0 := by simp [onesBelow]
  rw [cursor, if_neg (by simp)]
  omega

/-- With no 0 bits the high cursor walks through it from the other end. -/
theorem cursor_allOnes {n : Nat} (k : Nat) (hk : k < n) : cursor (BitVec.allOnes n) k = n - 1 - k := by
  have hones : onesBelow (BitVec.allOnes n) k = k := by
    rw [onesBelow, countP_range_eq_count, Nat.count_iff_forall]
    intro j hj
    simp [hj.trans hk]
  rw [cursor, if_pos (by simp [hk]), highCursor_eq, hones]

/-- Settles O27: each clause by the bit that the cursor reads. -/
theorem permuteExtremeMasksAndWords : Obligations.PermuteExtremeMasksAndWords := by
  intro n x m
  refine ⟨?_, fun k hk => ?_, ?_, ?_⟩
  · apply BitVec.eq_of_getLsbD_eq
    intro k hk
    rw [getLsbD_permute_cursor x 0 k hk, cursor_zero]
  · rw [getLsbD_permute_cursor x _ k hk, cursor_allOnes k hk]
  · apply BitVec.eq_of_getLsbD_eq
    intro k hk
    simp [getLsbD_permute_cursor _ m k hk]
  · apply BitVec.eq_of_getLsbD_eq
    intro k hk
    simp [getLsbD_permute_cursor _ m k hk, cursor_lt m k hk, hk]

end Sys2Proof.Machine
end

section
/-! Decryption undoes encryption: round by round (42_feistel_engine.md R137), and so in every mode (43_cipher_modes.md
R163), with the two decrypting commands that run the engine backwards (R153, R155) and the block of 64 bits (R151). -/

namespace Sys2Proof.Machine

/-! ## The engine there and back -/

theorem decRound64_encRound64 (pool : List Word) (b : Word × Word) (r : Nat) :
    decRound64 pool (encRound64 pool b r) r = b := by
  simp [decRound64, encRound64]

theorem encRound64_decRound64 (pool : List Word) (b : Word × Word) (r : Nat) :
    encRound64 pool (decRound64 pool b r) r = b := by
  simp [decRound64, encRound64]

theorem decRound128_encRound128 (pool : List Word) (b : BitVec 64 × BitVec 64) (r : Nat) :
    decRound128 pool (encRound128 pool b r) r = b := by
  simp [decRound128, encRound128]

theorem encRound128_decRound128 (pool : List Word) (b : BitVec 64 × BitVec 64) (r : Nat) :
    encRound128 pool (decRound128 pool b r) r = b := by
  simp [decRound128, encRound128]

/-- The first round of decryption undoes the last one of encryption. -/
theorem dec64_enc64 (pool : List Word) (n : Nat) (b : Word × Word) : dec64 pool n (enc64 pool n b) = b := by
  induction n with
  | zero => simp
  | succ n ih => rw [enc64_succ, dec64_succ, decRound64_encRound64, ih]

/-- The last round of encryption undoes the first one of decryption. -/
theorem enc64_dec64 (pool : List Word) (n : Nat) (b : Word × Word) : enc64 pool n (dec64 pool n b) = b := by
  induction n generalizing b with
  | zero => simp
  | succ n ih => rw [enc64_succ, dec64_succ, ih, encRound64_decRound64]

theorem dec128_enc128 (pool : List Word) (n : Nat) (b : Words4) : dec128 pool n (enc128 pool n b) = b := by
  induction n with
  | zero => simp
  | succ n ih => rw [enc128_succ, dec128_succ, halves_fromHalves, decRound128_encRound128, fromHalves_halves, ih]

theorem enc128_dec128 (pool : List Word) (n : Nat) (b : Words4) : enc128 pool n (dec128 pool n b) = b := by
  induction n generalizing b with
  | zero => simp
  | succ n ih => rw [enc128_succ, dec128_succ, ih, halves_fromHalves, encRound128_decRound128, fromHalves_halves]

theorem fd_fe (bsz : BlockSize) (w : List Word) (n : Nat) (b : Words4) (hb : blockOf bsz b = b) :
    fd bsz w n (fe bsz w n b) = b := by
  cases bsz with
  | b64 =>
    calc fd .b64 w n (fe .b64 w n b)
      _ = block64 (dec64 w n (enc64 w n (b.w0, b.w1))) := rfl
      _ = block64 (b.w0, b.w1) := by rw [dec64_enc64]
      _ = b := hb
  | b128 => exact dec128_enc128 w n b

theorem fe_fd (bsz : BlockSize) (w : List Word) (n : Nat) (b : Words4) (hb : blockOf bsz b = b) :
    fe bsz w n (fd bsz w n b) = b := by
  cases bsz with
  | b64 =>
    calc fe .b64 w n (fd .b64 w n b)
      _ = block64 (enc64 w n (dec64 w n (b.w0, b.w1))) := rfl
      _ = block64 (b.w0, b.w1) := by rw [enc64_dec64]
      _ = b := hb
  | b128 => exact enc128_dec128 w n b

/-- Settles O30. -/
theorem feistelRoundTrip : Obligations.FeistelRoundTrip := fun bsz w n b hb =>
  ⟨fd_fe bsz w n b hb, fe_fd bsz w n b hb⟩

/-! ## The decrypting commands -/

/-- R153. -/
theorem exec_ecbDec (bsz : BlockSize) (s : State) :
    exec (.ecbDec bsz) s =
      .next (cipherDone s bsz (fd bsz (keyExpand s.key) s.rounds.toNat (blockOf bsz s.din))) := rfl

/-- R155. -/
theorem exec_cbcDec (bsz : BlockSize) (s : State) :
    exec (.cbcDec bsz) s =
      .next (cipherDone s bsz
        ((fd bsz (keyExpand s.key) s.rounds.toNat (blockOf bsz s.din)).xor (blockOf bsz s.iv))) := rfl

set_option maxRecDepth 1024 in
/-- R153's example with a 64-bit block: the words of the pool nest through its recurrence, a little deeper than the default
recursion depth of 512. -/
theorem fd_trace_b64 :
    fd .b64 (keyExpand ⟨0x00010203, 0x04050607, 0x08090a0b, 0x0c0d0e0f⟩) (12 : BitVec 5).toNat
        (blockOf .b64 ⟨0x00112233, 0x44556677, 0x8899aabb, 0xccddeeff⟩) =
      ⟨0xa7368b71, 0x0cb261b5, 0, 0⟩ := by
  decide

set_option maxRecDepth 1024 in
/-- R153's example with a 128-bit block, at the same recursion depth. -/
theorem fd_trace_b128 :
    fd .b128 (keyExpand ⟨0x00010203, 0x04050607, 0x08090a0b, 0x0c0d0e0f⟩) (12 : BitVec 5).toNat
        (blockOf .b128 ⟨0x00112233, 0x44556677, 0x8899aabb, 0xccddeeff⟩) =
      ⟨0xd517db25, 0xd2cefd3e, 0x3acd6031, 0x36c5fa3b⟩ := by
  decide

/-- Settles O32: the state by `exec_ecbDec`, the examples by the traces of the engine. -/
theorem ecbDecWritesInverseFeistelOfTheInput : Obligations.EcbDecWritesInverseFeistelOfTheInput := by
  refine ⟨exec_ecbDec, encodeC_eq_or_bsz 0 1, fun s hkey hrounds hdin =>
    ⟨exists_dout_of_exec (exec_ecbDec .b64 s) ?_, exists_dout_of_exec (exec_ecbDec .b128 s) ?_⟩⟩
  · rw [hkey, hrounds, hdin, fd_trace_b64]
    rfl
  · rw [hkey, hrounds, hdin, fd_trace_b128]
    rfl

/-- Settles O34: the state by `exec_cbcDec`; the examples have R153's inputs, so they are its traces XORed with the IV. -/
theorem cbcDecWritesInverseFeistelXorIv : Obligations.CbcDecWritesInverseFeistelXorIv := by
  refine ⟨exec_cbcDec, encodeC_eq_or_bsz 1 1, fun s hkey hrounds hdin hiv =>
    ⟨exists_dout_of_exec (exec_cbcDec .b64 s) ?_, exists_dout_of_exec (exec_cbcDec .b128 s) ?_⟩⟩
  · rw [hkey, hrounds, hdin, hiv, fd_trace_b64]
    decide
  · rw [hkey, hrounds, hdin, hiv, fd_trace_b128]
    decide

/-! ## The modes there and back -/

/-- The result of a command, put in as the next one's input. -/
def State.feedBack (s : State) : State := { s with din := s.dout }

/-- DEC gives the plaintext back when the block that it writes, from the block that ENC wrote, is that of DIN. -/
theorem roundTrip_of_blocks {enc dec : Instr} {bsz : BlockSize} {s : State} {o p : Words4}
    (henc : exec enc s = .next (cipherDone s bsz o))
    (hdec : exec dec (cipherDone s bsz o).feedBack = .next (cipherDone (cipherDone s bsz o).feedBack bsz p))
    (hp : p = blockOf bsz s.din) :
    ∃ t u, exec enc s = .next t ∧ exec dec { t with din := t.dout } = .next u ∧ u.dout = blockOf bsz s.din :=
  ⟨_, _, henc, hdec, by rw [cipherDone_dout, hp, blockOf_blockOf]⟩

theorem feedBack_input (s : State) (bsz : BlockSize) (o : Words4) :
    blockOf bsz (cipherDone s bsz o).feedBack.din = blockOf bsz o := blockOf_blockOf bsz o

theorem xor_comm4 (x y : Words4) : x.xor y = y.xor x := by
  simp only [Words4.xor, BitVec.xor_comm]

/-- R163, ECB: FD undoes FE. -/
theorem ecb_roundTrip (bsz : BlockSize) (s : State) :
    ∃ t u, exec (.ecbEnc bsz) s = .next t ∧ exec (.ecbDec bsz) { t with din := t.dout } = .next u ∧
      u.dout = blockOf bsz s.din := by
  refine roundTrip_of_blocks (exec_ecbEnc bsz s) (exec_ecbDec bsz _) ?_
  rw [feedBack_input, blockOf_fe]
  exact fd_fe bsz _ _ _ (blockOf_blockOf bsz s.din)

/-- R163, CBC: FD undoes FE, and the IV cancels itself. -/
theorem cbc_roundTrip (bsz : BlockSize) (s : State) :
    ∃ t u, exec (.cbcEnc bsz) s = .next t ∧ exec (.cbcDec bsz) { t with din := t.dout } = .next u ∧
      u.dout = blockOf bsz s.din := by
  have hblock : blockOf bsz ((blockOf bsz s.din).xor (blockOf bsz s.iv)) = (blockOf bsz s.din).xor (blockOf bsz s.iv) := by
    rw [blockOf_xor, blockOf_blockOf, blockOf_blockOf]
  refine roundTrip_of_blocks (exec_cbcEnc bsz s) (exec_cbcDec bsz _) ?_
  rw [feedBack_input, blockOf_fe]
  exact (congrArg (Words4.xor · _) (fd_fe bsz _ _ _ hblock)).trans (xor_self_cancel _ _)

/-- R163, CFB, OFB and CTR: both commands XOR the same keystream, which cancels itself. -/
theorem keystream_roundTrip (enc dec : Instr) (bsz : BlockSize) (s : State) (henc : isKeystream enc bsz)
    (hdec : isKeystream dec bsz) :
    ∃ t u, exec enc s = .next t ∧ exec dec { t with din := t.dout } = .next u ∧ u.dout = blockOf bsz s.din := by
  refine roundTrip_of_blocks (exec_keystream enc bsz s henc) (exec_keystream dec bsz _ hdec) ?_
  rw [keystreamXor_eq, feedBack_input, keystreamXor_eq, blockOf_xor, blockOf_fe, blockOf_blockOf, xor_comm4,
    xor_comm4 _ (blockOf bsz s.din)]
  exact xor_self_cancel _ _

/-- Settles O37: one round trip for each mode, the three keystream modes by one. -/
theorem cipherRoundTripInEveryMode : Obligations.CipherRoundTripInEveryMode := by
  rintro bsz s enc dec (⟨rfl, rfl⟩ | ⟨rfl, rfl⟩ | ⟨rfl, rfl⟩ | ⟨rfl, rfl⟩ | ⟨rfl, rfl⟩)
  · exact ecb_roundTrip bsz s
  · exact cbc_roundTrip bsz s
  all_goals exact keystream_roundTrip _ _ bsz s (by simp [isKeystream]) (by simp [isKeystream])

/-! ## The 64-bit block -/

/-- A cipher command reads KEY, ROUNDS and the block's words of DIN and IV, and nothing else (R150). -/
theorem exec_cipher_of_same_blocks (i : Instr) (bsz : BlockSize) (s s' : State) (hi : isCipher i bsz)
    (hkey : s'.key = s.key) (hrounds : s'.rounds = s.rounds) (hdin : blockOf bsz s'.din = blockOf bsz s.din)
    (hiv : blockOf bsz s'.iv = blockOf bsz s.iv) :
    ∃ o, exec i s = .next (cipherDone s bsz o) ∧ exec i s' = .next (cipherDone s' bsz o) := by
  rcases hi with rfl | rfl | rfl | rfl | hkeystream
  · exact ⟨_, exec_ecbEnc bsz s, by rw [exec_ecbEnc, hkey, hrounds, hdin]⟩
  · exact ⟨_, exec_ecbDec bsz s, by rw [exec_ecbDec, hkey, hrounds, hdin]⟩
  · exact ⟨_, exec_cbcEnc bsz s, by rw [exec_cbcEnc, hkey, hrounds, hdin, hiv]⟩
  · exact ⟨_, exec_cbcDec bsz s, by rw [exec_cbcDec, hkey, hrounds, hdin, hiv]⟩
  · refine ⟨_, exec_keystream i bsz s hkeystream, ?_⟩
    rw [exec_keystream i bsz s' hkeystream, keystreamXor_eq, keystreamXor_eq, hkey, hrounds, hdin, hiv]

/-- Settles O36: words 2 and 3 are outside the block of each register, and DOUT's are 0 in it. -/
theorem smallBlockIgnoresAndClearsTheHighWords : Obligations.SmallBlockIgnoresAndClearsTheHighWords := by
  intro s a b c d i hi
  obtain ⟨o, ho, ho'⟩ := exec_cipher_of_same_blocks i .b64 s
    { s with din := { s.din with w2 := a, w3 := b }, iv := { s.iv with w2 := c, w3 := d } } hi rfl rfl rfl rfl
  exact ⟨_, _, ho, ho', rfl, rfl, rfl⟩

end Sys2Proof.Machine
end

section
/-! Streaming (46_hash_streaming.md R211, R212): the hash takes its message bit by bit, whatever the chunks it comes in. -/

namespace Sys2Proof.Machine

/-! ## The stream of message bits -/

/-- What the message so far has made of the hash: the chaining value, and the bits not yet compressed. -/
abbrev Stream := Words8 × List Bool

/-- One more message bit; the bit that fills a block compresses it (R203). -/
def feedBit (p : HashParams) (st : Stream) (b : Bool) : Stream :=
  if st.2.length + 1 = 128 then (compress p st.1 (words (pad128 (st.2 ++ [b]))), []) else (st.1, st.2 ++ [b])

/-- Message bits, one after another. -/
def feedBits (p : HashParams) (st : Stream) (bits : List Bool) : Stream := bits.foldl (feedBit p) st

theorem feedBits_append (p : HashParams) (st : Stream) (a b : List Bool) :
    feedBits p st (a ++ b) = feedBits p (feedBits p st a) b :=
  List.foldl_append

/-- Bits that do not fill the block are kept. -/
theorem feedBits_of_lt (p : HashParams) (h : Words8) (kept bits : List Bool) (hlen : (kept ++ bits).length < 128) :
    feedBits p (h, kept) bits = (h, kept ++ bits) := by
  induction bits generalizing kept with
  | nil => rw [List.append_nil]; rfl
  | cons b bits ih =>
    rw [List.append_cons] at hlen ⊢
    have hkept : kept.length + 1 ≠ 128 := by
      simp only [List.length_append, List.length_singleton] at hlen
      omega
    rw [← ih (kept ++ [b]) hlen]
    exact congrArg (feedBits p · bits) (if_neg hkept)

/-- Bits that fill the block compress it and go on with none kept. -/
theorem feedBits_of_ge (p : HashParams) (h : Words8) (kept bits : List Bool) (hkept : kept.length < 128)
    (hlen : 128 ≤ (kept ++ bits).length) :
    feedBits p (h, kept) bits =
      feedBits p (compress p h (words (pad128 ((kept ++ bits).take 128))), []) ((kept ++ bits).drop 128) := by
  induction bits generalizing kept with
  | nil =>
    rw [List.append_nil] at hlen
    omega
  | cons b bits ih =>
    rw [List.append_cons] at hlen ⊢
    by_cases hfull : kept.length + 1 = 128
    · have hfull' : (kept ++ [b]).length = 128 := by rw [List.length_append, List.length_singleton, hfull]
      rw [List.take_left' hfull', List.drop_left' hfull']
      exact congrArg (feedBits p · bits) (if_pos hfull)
    · have hkept' : (kept ++ [b]).length < 128 := by
        rw [List.length_append, List.length_singleton]
        omega
      rw [← ih (kept ++ [b]) hkept' hlen]
      exact congrArg (feedBits p · bits) (if_neg hfull)

/-! ## HASH_UPDATE feeds its chunk -/

/-- The stream that a state stands for. -/
def State.stream (s : State) : Stream := (s.h, buffered s)

/-- A state that can take message bits: HASH_UPDATE is allowed (R200) and the buffer is legal (R39). -/
def State.streaming (s : State) : Prop := s.status.hstate.accepts = true ∧ s.bufbitsLegal ∧ s.bufPadded

theorem buffered_length_of_legal (s : State) (hb : s.bufbitsLegal) : (buffered s).length = s.bufbits := by
  rw [buffered_length]
  omega

/-- A legal buffer is its valid bits, padded. -/
theorem pad128_buffered (s : State) (hp : s.bufPadded) : pad128 (buffered s) = s.buf := by
  apply pad128_eq_of_getMsbD
  intro q hq
  rw [buffered, List.getD_eq_getElem?_getD, List.getElem?_take, bitsOf_getElem?, if_pos hq]
  split
  case isTrue => rfl
  case isFalse hge =>
    have hzero := congrArg (BitVec.getMsbD · (q - s.bufbits)) hp
    simpa [BitVec.getMsbD_shiftLeft, Nat.sub_add_cancel (Nat.not_lt.1 hge)] using hzero

/-- What HASH_UPDATE buffers reads back as it was. -/
theorem buffered_absorb (p : HashParams) (s : State) (t : List Bool) (ht : (leftOver t).length ≤ 128) :
    buffered (absorb p s t) = leftOver t := by
  rw [buffered, absorb_buf, absorb_bufbits]
  exact bitsOf_pad128_take _ ht

/-- One absorption is the bits fed one by one. -/
theorem absorb_stream (p : HashParams) (s : State) (bits : List Bool) (hb : s.bufbitsLegal) (hbits : bits.length ≤ 128) :
    (absorb p s (buffered s ++ bits)).stream = feedBits p s.stream bits := by
  have hkept : (buffered s).length ≤ 127 := (buffered_length_of_legal s hb).le.trans hb
  have hlen : (buffered s ++ bits).length ≤ 255 := by
    rw [List.length_append]
    omega
  have hleft := length_leftOver_le _ hlen
  rw [State.stream, buffered_absorb p s _ (by omega), absorb_h, leftOver, State.stream]
  split
  case isTrue hge =>
    rw [feedBits_of_ge p s.h _ bits (by omega) hge, feedBits_of_lt]
    · rw [List.nil_append]
    · rw [List.nil_append, List.length_drop]
      omega
  case isFalse hlt => rw [feedBits_of_lt p s.h _ bits (by omega)]

/-- HASH_UPDATE of a chunk that the host has put in DIN. -/
def feedChunk (p : HashParams) (s : State) (c : Words4 × Nat) : State := hashUpdateWith p c.2 { s with din := c.1 }

/-- The message bits of a chunk (R203). -/
def chunkBits (c : Words4 × Nat) : List Bool := (bitsOf c.1.cat).take c.2

/-- HASH_UPDATE in a streaming state: the state still streams, its stream has taken the chunk's bits, MSGLEN is as it was. -/
theorem feedChunk_inv (p : HashParams) (s : State) (c : Words4 × Nat) (hs : s.streaming) :
    (feedChunk p s c).streaming ∧ (feedChunk p s c).stream = feedBits p s.stream (chunkBits c) ∧
      (feedChunk p s c).msglenLo = s.msglenLo ∧ (feedChunk p s c).msglenHi = s.msglenHi := by
  obtain ⟨haccepts, hbits, -⟩ := hs
  obtain ⟨hbits', hpadded'⟩ := absorb_buffer_legal p { s with din := c.1 } c.2 hbits
  have hchunk : (chunkBits c).length ≤ 128 := by simp [chunkBits]
  rw [feedChunk, hashUpdateWith_eq p c.2 { s with din := c.1 } haccepts]
  refine ⟨⟨rfl, hbits', hpadded'⟩, absorb_stream p { s with din := c.1 } (chunkBits c) hbits hchunk, ?_⟩
  rw [absorb_frame]
  exact ⟨rfl, rfl⟩

/-- A message in chunks, one HASH_UPDATE for each. -/
def feedChunks (p : HashParams) (s : State) (cs : List (Words4 × Nat)) : State := cs.foldl (feedChunk p) s

/-- R211: all that the chunks leave is what their bits, joined, make of the stream. -/
theorem feedChunks_inv (p : HashParams) (s : State) (cs : List (Words4 × Nat)) (hs : s.streaming) :
    (feedChunks p s cs).streaming ∧ (feedChunks p s cs).stream = feedBits p s.stream (cs.flatMap chunkBits) ∧
      (feedChunks p s cs).msglenLo = s.msglenLo ∧ (feedChunks p s cs).msglenHi = s.msglenHi := by
  induction cs generalizing s with
  | nil => exact ⟨hs, rfl, rfl, rfl⟩
  | cons c cs ih =>
    obtain ⟨hs', hstream, hlo, hhi⟩ := feedChunk_inv p s c hs
    obtain ⟨hs'', hstream', hlo', hhi'⟩ := ih (feedChunk p s c) hs'
    refine ⟨hs'', ?_, hlo'.trans hlo, hhi'.trans hhi⟩
    rw [List.flatMap_cons, feedBits_append, ← hstream]
    exact hstream'

/-! ## The state and the digest from the stream -/

/-- The stream of a legal state fixes H, BUF and BUFBITS. -/
theorem eq_of_stream_eq (s t : State) (hs : s.streaming) (ht : t.streaming) (h : s.stream = t.stream) :
    s.h = t.h ∧ s.buf = t.buf ∧ s.bufbits = t.bufbits := by
  obtain ⟨-, hsbits, hspadded⟩ := hs
  obtain ⟨-, htbits, htpadded⟩ := ht
  obtain ⟨hh, hbuffered⟩ := Prod.mk.inj h
  refine ⟨hh, ?_, ?_⟩
  · rw [← pad128_buffered s hspadded, ← pad128_buffered t htpadded, hbuffered]
  · rw [← buffered_length_of_legal s hsbits, ← buffered_length_of_legal t htbits, hbuffered]

/-- HASH_FINAL reads the stream and MSGLEN (R205 to R207). -/
theorem hashFinalWith_h_of_streaming (p : HashParams) (s : State) (hs : s.streaming) :
    (hashFinalWith p s).h =
      compress p (compress p s.stream.1 (words (pad128 (s.stream.2 ++ [true])))) ⟨0, 0, s.msglenHi, s.msglenLo⟩ := by
  obtain ⟨haccepts, -, -⟩ := hs
  rw [hashFinalWith_eq p s haccepts]
  rfl

/-- Settles O48: both ways of cutting feed the same bits to the same stream. -/
theorem streamingDoesNotDependOnTheSplit : Obligations.StreamingDoesNotDependOnTheSplit := by
  intro p s xs ys hbits hpadded hstate _ _ hsame
  have hs : s.streaming := ⟨(accepts_iff _).2 hstate, hbits, hpadded⟩
  obtain ⟨hxs, hxstream, hxlo, hxhi⟩ := feedChunks_inv p s xs hs
  obtain ⟨hys, hystream, hylo, hyhi⟩ := feedChunks_inv p s ys hs
  have hsame' : xs.flatMap chunkBits = ys.flatMap chunkBits := hsame
  have hstream : (feedChunks p s xs).stream = (feedChunks p s ys).stream := by rw [hxstream, hystream, hsame']
  have hdigest : (hashFinalWith p (feedChunks p s xs)).h = (hashFinalWith p (feedChunks p s ys)).h := by
    rw [hashFinalWith_h_of_streaming p _ hxs, hashFinalWith_h_of_streaming p _ hys, hstream, hxlo, hxhi, hylo, hyhi]
  obtain ⟨hh, hbuf, hbufbits⟩ := eq_of_stream_eq _ _ hxs hys hstream
  exact ⟨hh, hbuf, hbufbits, hdigest⟩

/-! ## The empty message -/

/-- A state right after HASH_INIT streams (R201). -/
theorem hashInitWith_streaming (p : HashParams) (s : State) : (hashInitWith p s).streaming :=
  ⟨rfl, Nat.zero_le _, BitVec.zero_shiftLeft _⟩

/-- Settles O49: a HASH_UPDATE 0 feeds no bits, so the digest is that of the HASH_FINAL right after HASH_INIT. -/
theorem emptyMessageDigest : Obligations.EmptyMessageDigest := by
  refine fun p s => ⟨hashFinalWith_hashInitWith_h p s, ?_⟩
  have hinit := hashInitWith_streaming p s
  obtain ⟨hs, hstream, hlo, hhi⟩ := feedChunk_inv p (hashInitWith p s) (s.din, 0) hinit
  calc (hashFinalWith p (feedChunk p (hashInitWith p s) (s.din, 0))).h
    _ = (hashFinalWith p (hashInitWith p s)).h := by
      rw [hashFinalWith_h_of_streaming p _ hs, hashFinalWith_h_of_streaming p _ hinit, hstream, hlo, hhi]
      rfl
    _ = _ := hashFinalWith_hashInitWith_h p s

end Sys2Proof.Machine
end
